-- ==== Sys2Proof/Word.lean ====
section
/-! DEFINITION. The widths of the block's data and the names its operand fields select among (R8, R84, R85).
No operation stands here: bit fields, byte order and sign extension are in Decode.lean and Machine/Operands.lean. -/

namespace Sys2Proof

/-- A byte is 8 bits (R8). -/
abbrev Byte := BitVec 8

/-- A word is 16 bits: a Modbus register value, the unit of the byte-order codec (R8, R13). -/
abbrev Word16 := BitVec 16

/-- A register, and a command word, is 32 bits (R8, R80). -/
abbrev Word32 := BitVec 32

/-- An offset in the 4 KiB window is 12 bits (R60). -/
abbrev Offset := BitVec 12

/-- The seven ModbusValue types (R84). TYPE = 7 is reserved and has no constructor: a word that holds it does not
decode (R88). -/
inductive ValType where
  | u16 | i16 | u32 | i32 | f32 | f64 | bool
deriving DecidableEq, Repr

/-- The four byte orders (R85): BE, LE, BEWS, LEWS. -/
inductive ByteOrder where
  | be | le | bews | lews
deriving DecidableEq, Repr

end Sys2Proof
end

