-- ==== Sys2Proof/Config.lean ====
section
/-! DEFINITION. The block's parameters (R7): the fixed ones as numbers, the OPEN ones as constants with no body. -/

namespace Sys2Proof.Config

/-- MAX_PDU (R7). -/
def maxPdu : Nat := 253

/-- MIN_PDU (R7). -/
def minPdu : Nat := 1

/-- PBUF_SIZE (R7, R35). -/
def pbufSize : Nat := 253

/-- FBUF_SIZE (R7, R36). -/
def fbufSize : Nat := 513

/-- MBAP_SIZE (R7). -/
def mbapSize : Nat := 7

/-- UNIT_MAX (R7): unit ids above it are refused (R132, R150). -/
def unitMax : Nat := 247

/-- MFB_BASE (R7, R60, U5), OPEN: where the platform places the window. No statement can depend on its value (log 10). -/
opaque mfbBase : Nat

/-- LATENCY (R7, R226, R260, U4), OPEN: how many host-observable steps pass between the issue of the n-th command and
its completion, where the environment has not fixed it. A FREE VALUE: finite, otherwise unconstrained (log 1). -/
opaque latency : Nat → Nat

end Sys2Proof.Config
end

