-- ==== Sys2Proof/Syntax.lean ====
section
/-! DEFINITION. The commands: one constructor per row of spec/opcode_table.json (R87). -/

namespace Sys2Proof

/-- MFB command set version 1 (R2, R87), with the operands of R83 to R86. -/
inductive Instr where
  /-- CRC.INIT (R110). -/
  | crcInit
  /-- CRC.UPD b (R111). -/
  | crcUpd (b : Byte)
  /-- LRC.INIT (R112). -/
  | lrcInit
  /-- LRC.UPD b (R113). -/
  | lrcUpd (b : Byte)
  /-- FRM.TCP, or FRM.TCP.INC when `inc` (R134, R86). -/
  | frmTcp (inc : Bool)
  /-- FRM.RTU (R138). -/
  | frmRtu
  /-- FRM.ASC (R142). -/
  | frmAsc
  /-- DFR.TCP, or DFR.TCP.CHK when `chk` (R151, R86). -/
  | dfrTcp (chk : Bool)
  /-- DFR.RTU (R155). -/
  | dfrRtu
  /-- DFR.ASC (R159). -/
  | dfrAsc
  /-- RX.RST (R170). -/
  | rxRst
  /-- RX.APP b (R171). -/
  | rxApp (b : Byte)
  /-- VAL.PACK t, o (R190). -/
  | valPack (t : ValType) (o : ByteOrder)
  /-- VAL.UNPACK t, o (R191). -/
  | valUnpack (t : ValType) (o : ByteOrder)
  /-- SRST (R210). -/
  | srst
deriving DecidableEq, Repr

end Sys2Proof
end

