-- ==== Sys2Proof/Machine/State.lean ====
section
/-! DEFINITION. The state of the block (R43), its environment, and the reasons a step can stop. -/

namespace Sys2Proof.Machine

/-- The result codes (R221). The reserved codes 0xD to 0xF are never produced (U6) and have no name (log 8). -/
inductive ErrCode where
  | ok | illegalCmd | valPduLen | valUnit | frmChecksum | frmHex | frmTerminator | frmHeader | frmLength | trnTid
  | codWcnt | codType | bufOverflow
deriving DecidableEq, Repr

/-- The two byte buffers (R35, R36). -/
inductive Buffer where
  | pbuf | fbuf
deriving DecidableEq, Repr

/-- The thirteen host-visible registers (R20). -/
inductive Reg where
  | cmd | status | crc | lrc | unit | tid | plen | flen | valLo | valHi | w01 | w23 | wcnt
deriving DecidableEq, Repr

/-- What the host, and the platform's reset input, can do to the block (R12, R96, R239). Offsets are offsets in the
window (R60). -/
inductive HostOp where
  /-- `RD off`: a 32-bit read (R12). -/
  | rd (off : Offset)
  /-- `WR off, v`: a 32-bit write (R12). -/
  | wr (off : Offset) (v : Word32)
  /-- `RDB off`: an 8-bit read (R12). -/
  | rdb (off : Offset)
  /-- `WRB off, v`: an 8-bit write (R12). -/
  | wrb (off : Offset) (v : Byte)
  /-- A 16-bit read: no target accepts it (R62, R63). -/
  | rdh (off : Offset)
  /-- A 16-bit write: no target accepts it (R62, R63). -/
  | wrh (off : Offset) (v : Word16)
  /-- `WAIT`: read STATUS until BUSY reads 0 (R96). -/
  | wait
  /-- Power-on reset, from the platform's reset input (R250, R251). -/
  | powerOnReset
deriving DecidableEq, Repr

/-- Why the machine stops. Each is a model fault of R225: never final, never cleared. -/
inductive Fault where
  /-- A read, by the host or by a command, of a buffer byte nothing has written since power-on (R66, R225 (b), U1).
  Raised by `bufRead` and `hostReadByte`. Safe: the hardware returns some byte and goes on. -/
  | unwrittenRead (b : Buffer) (i : Nat)
  /-- A host access to an unmapped offset, of a width its target does not accept, or misaligned (R64, R225 (a), U3).
  Raised by `hostRead`, `hostWrite`, `hostReadByte`, `hostWriteByte` and `hostIdle`. Safe: the block's state is unchanged
  and the bus's own answer is open (log 7). -/
  | busError (off : Offset)
  /-- A host access other than a 32-bit read of STATUS while BUSY = 1 (R227, R225 (c), U2). Raised by `hostBusy`.
  Safe: the hardware's result is not defined. -/
  | busyViolation (off : Offset)
deriving DecidableEq, Repr

/-- Why a command has no meaning. -/
inductive Refusal where
  /-- The command is not modelled. Raised by `exec` alone, in an arm without a meaning; no arm of this model is one.
  Safe. -/
  | notModelled (mnemonic : String)
deriving DecidableEq, Repr

/-- How a command's rule can end before its end: `raise Err(code)` (R11), or a model fault (R66). -/
inductive Stop where
  /-- `raise Err(code)`. -/
  | err (c : ErrCode)
  /-- A model fault. -/
  | fault (f : Fault)
deriving DecidableEq, Repr

/-- The record of R43, and after it the block's environment (R6): fields of the model, no registers of the block. -/
structure State where
  /-- STATUS.BUSY (R23). -/
  busy : Bool
  /-- STATUS.ERRCODE (R24). -/
  errcode : ErrCode
  /-- CMDLATCH, hidden (R38). -/
  cmdlatch : Word32
  /-- CRC (R26). -/
  crc : Word16
  /-- LRC.SUM (R27). -/
  sum : Byte
  /-- UNIT (R28). -/
  unit : Byte
  /-- TID (R29). -/
  tid : Word16
  /-- PLEN (R30). -/
  plen : BitVec 9
  /-- FLEN (R31). -/
  flen : BitVec 10
  /-- VAL (R32). -/
  val : BitVec 64
  /-- W0 (R33). -/
  w0 : Word16
  /-- W1 (R33). -/
  w1 : Word16
  /-- W2 (R33). -/
  w2 : Word16
  /-- W3 (R33). -/
  w3 : Word16
  /-- WCNT (R34). -/
  wcnt : BitVec 3
  /-- PBUF and FBUF (R35, R36): the written bytes, each at its window offset (R61); an unlisted byte is unwritten (R39). -/
  mem : List Host.Cell
  /-- The host operations still to be done, oldest first (log 2). -/
  host : List HostOp
  /-- The values the host has read, oldest first (R261, log 3). -/
  reads : List Word32
  /-- Host-observable steps left before the command in progress completes (R7, R226, log 1). -/
  wait : Nat
  /-- The latencies of the next commands, where the environment fixes them (log 1). -/
  latencies : List Nat
  /-- How many commands have been issued: the argument of the free value `Config.latency` (log 1). -/
  issued : Nat
deriving DecidableEq, Repr

/-- The state after power-on reset (R42, R251): idle, with nothing for the host to do (R252). -/
def State.reset : State :=
  { busy := false, errcode := .ok, cmdlatch := 0x00000000, crc := 0xFFFF, sum := 0x00, unit := 0x00, tid := 0x0000,
    plen := 0, flen := 0, val := 0, w0 := 0x0000, w1 := 0x0000, w2 := 0x0000, w3 := 0x0000, wcnt := 0, mem := [],
    host := [], reads := [], wait := 0, latencies := [], issued := 0 }

end Sys2Proof.Machine
end

