-- ==== Sys2Proof/Machine/Operands.lean ====
section
/-! DEFINITION. Bit fields, byte order and the operand forms: bytes and words (R8 to R10), the register and buffer map
(R20, R61), value types, value bytes and the four byte orders (R180 to R183), hex characters (R143, R158). -/

namespace Sys2Proof.Machine

/-- `hi8(w) = w[15:8]` (R10). -/
def hi8 (w : Word16) : Byte := w.extractLsb' 8 8

/-- `lo8(w) = w[7:0]` (R10). -/
def lo8 (w : Word16) : Byte := w.extractLsb' 0 8

/-- `be16(hi, lo) = hi << 8 OR lo` (R10). -/
def be16 (hi lo : Byte) : Word16 := (hi.setWidth 16 <<< 8) ||| lo.setWidth 16

/-- `s[i]` (R9). Every rule indexes within its sequence; outside it this reads 0 (log 13). -/
def byteAt (s : List Byte) (i : Nat) : Byte := s.getD i 0

/-- `s[i..j)` (R9). -/
def slice (s : List Byte) (i j : Nat) : List Byte := (s.take j).drop i

/-! The window (R20, R61). -/

/-- A register's offset (R20). -/
def Reg.offset : Reg → Offset
  | .cmd => 0x000
  | .status => 0x004
  | .crc => 0x008
  | .lrc => 0x00C
  | .unit => 0x010
  | .tid => 0x014
  | .plen => 0x018
  | .flen => 0x01C
  | .valLo => 0x020
  | .valHi => 0x024
  | .w01 => 0x028
  | .w23 => 0x02C
  | .wcnt => 0x030

/-- The registers in the order of their offsets (R20). -/
def Reg.all : List Reg :=
  [.cmd, .status, .crc, .lrc, .unit, .tid, .plen, .flen, .valLo, .valHi, .w01, .w23, .wcnt]

/-- The register a 32-bit access at `off` reaches: none where the offset is no register's (R61, R62). -/
def Reg.ofOffset (off : Offset) : Option Reg := Reg.all.find? (fun r => r.offset == off)

/-- Where a buffer begins (R61). -/
def Buffer.base : Buffer → Nat
  | .pbuf => 0x400
  | .fbuf => 0x800

/-- A buffer's size in bytes (R35, R36). -/
def Buffer.size : Buffer → Nat
  | .pbuf => Config.pbufSize
  | .fbuf => Config.fbufSize

/-- The window offset of byte `i` of a buffer (R61). -/
def Buffer.addr (b : Buffer) (i : Nat) : Nat := b.base + i

/-- The window offset `a` lies in the buffer (R61). -/
def Buffer.holds (b : Buffer) (a : Nat) : Bool := b.base ≤ a && a < b.base + b.size

/-- The buffer byte an 8-bit access at `off` reaches: none where the offset is no buffer's (R61, R63). -/
def Buffer.ofOffset (off : Offset) : Option (Buffer × Nat) :=
  if Buffer.pbuf.holds off.toNat then some (.pbuf, off.toNat - Buffer.pbuf.base)
  else if Buffer.fbuf.holds off.toNat then some (.fbuf, off.toNat - Buffer.fbuf.base)
  else none

/-- Where the host finds offset `off` on its bus: MFB_BASE + offset (R60, log 10). -/
def busAddress (off : Offset) : Nat := Config.mfbBase + off.toNat

/-- The offset a bus address reaches: none outside the window (R60, log 10). -/
def windowOffset (a : Nat) : Option Offset :=
  if Config.mfbBase ≤ a ∧ a < Config.mfbBase + 4096 then some (BitVec.ofNat 12 (a - Config.mfbBase)) else none

/-! Value types and byte orders (R180 to R183). -/

/-- A type's width `k` in words (R84, R180). -/
def valWidth : ValType → Nat
  | .u16 => 1
  | .i16 => 1
  | .u32 => 2
  | .i32 => 2
  | .f32 => 2
  | .f64 => 4
  | .bool => 1

/-- VAL is in the canonical form of its type (R180). -/
def canonical (t : ValType) (v : BitVec 64) : Bool :=
  match t with
  | .u16 => v.extractLsb' 16 48 == 0
  | .i16 => v == (v.extractLsb' 0 16).signExtend 64
  | .u32 => v.extractLsb' 32 32 == 0
  | .i32 => v == (v.extractLsb' 0 32).signExtend 64
  | .f32 => v.extractLsb' 32 32 == 0
  | .f64 => true
  | .bool => v == 0 || v == 1

/-- `V[j] = VAL[8(n-1-j)+7 : 8(n-1-j)]` for j in 0..n-1 (R181). -/
def valueBytes (n : Nat) (v : BitVec 64) : List Byte :=
  (List.range n).map fun j => v.extractLsb' (8 * (n - 1 - j)) 8

/-- `sum over j of V[j] << 8(n-1-j)`, taken byte by byte from the most significant one (R181). -/
def valueOf (bs : List Byte) : Nat := bs.foldl (fun x b => x * 256 + b.toNat) 0

/-- The place in V of word `i`'s high byte (R182, R183), with `k` the width in words and n = 2k
(log 12). -/
def hiPlace (o : ByteOrder) (k i : Nat) : Nat :=
  match o with
  | .be => 2 * i
  | .le => 2 * k - 1 - 2 * i
  | .bews => 2 * (k - 1 - i)
  | .lews => 2 * i + 1

/-- The place in V of word `i`'s low byte (R182, R183). -/
def loPlace (o : ByteOrder) (k i : Nat) : Nat :=
  match o with
  | .be => 2 * i + 1
  | .le => 2 * k - 2 - 2 * i
  | .bews => 2 * (k - 1 - i) + 1
  | .lews => 2 * i

/-- The words of value bytes `v` under an order (R182). -/
def wordsOf (o : ByteOrder) (k : Nat) (v : List Byte) : List Word16 :=
  (List.range k).map fun i => be16 (byteAt v (hiPlace o k i)) (byteAt v (loPlace o k i))

/-- The value bytes of words W[0..k) under an order: each word sets its two bytes (R183). -/
def bytesOf (o : ByteOrder) (k : Nat) (ws : List Word16) : List Byte :=
  (List.range k).foldl
    (fun v i => (v.set (hiPlace o k i) (hi8 (ws.getD i 0))).set (loPlace o k i) (lo8 (ws.getD i 0)))
    (List.replicate (2 * k) 0)

/-- VAL for an n-byte value x of a type other than BOOL: sign-extended for I16 and I32, zero-extended for the rest
(R180, R191). -/
def extendValue (t : ValType) (x : Nat) : BitVec 64 :=
  match t with
  | .i16 => (BitVec.ofNat 16 x).signExtend 64
  | .i32 => (BitVec.ofNat 32 x).signExtend 64
  | .u16 | .u32 | .f32 | .f64 | .bool => BitVec.ofNat 64 x

/-! Hex characters (R143, R158). -/

/-- `hexchar(n)` (R143, log 11). -/
def hexChar (n : BitVec 4) : Byte :=
  if n.toNat ≤ 9 then BitVec.ofNat 8 (0x30 + n.toNat) else BitVec.ofNat 8 (0x41 + (n.toNat - 10))

/-- `hexval(ch)`: none for a character that is no hex digit (R158). -/
def hexVal (ch : Byte) : Option (BitVec 4) :=
  if 0x30 ≤ ch.toNat ∧ ch.toNat ≤ 0x39 then some (BitVec.ofNat 4 (ch.toNat - 0x30))
  else if 0x41 ≤ ch.toNat ∧ ch.toNat ≤ 0x46 then some (BitVec.ofNat 4 (ch.toNat - 0x37))
  else none

/-- Each byte as two characters, the high nibble's first (R143). -/
def hexEncode : List Byte → List Byte
  | [] => []
  | b :: bs => hexChar (b.extractLsb' 4 4) :: hexChar (b.extractLsb' 0 4) :: hexEncode bs

/-- The bytes of hex characters taken in pairs, the high nibble's first (R158, R159): none where a character is no hex
digit or one is left over. -/
def hexDecode : List Byte → Option (List Byte)
  | [] => some []
  | [_] => none
  | h :: l :: cs =>
    match hexVal h, hexVal l, hexDecode cs with
    | some x, some y, some bs => some (((x.setWidth 8 <<< 4) ||| y.setWidth 8) :: bs)
    | _, _, _ => none

end Sys2Proof.Machine
end

