-- ==== Sys2Proof/Machine/Flags.lean ====
section
/-! DEFINITION. The checksum functions (R100 to R106) and every flag computed from the state (R22, R24, R25, R27). -/

namespace Sys2Proof.Machine

/-- One shift of the CRC register: right by one, 0xA001 added when the bit shifted out is 1 (R100,
log 11). -/
def crcShift (c : Word16) : Word16 := if c.getLsbD 0 then (c >>> 1) ^^^ 0xA001#16 else c >>> 1

/-- `crc_byte(c, b)` (R100). -/
def crcByte (c : Word16) (b : Byte) : Word16 := crcShift^[8] (c ^^^ b.setWidth 16)

/-- `crc16(s)`: from 0xFFFF, with no final XOR (R101). -/
def crc16 (s : List Byte) : Word16 := s.foldl crcByte 0xFFFF#16

/-- `lrc_sum(s) = sum(s) mod 256` (R104). -/
def lrcSum (s : List Byte) : Byte := BitVec.ofNat 8 (s.map BitVec.toNat).sum

/-- `(0x100 - SUM) mod 0x100` (R27, R104). -/
def lrcOfSum (sum : Byte) : Byte := BitVec.ofNat 8 (0x100 - sum.toNat)

/-- `lrc(s)` (R104). -/
def lrc (s : List Byte) : Byte := lrcOfSum (lrcSum s)

/-- The number of a result code (R221). -/
def ErrCode.number : ErrCode → BitVec 4
  | .ok => 0x0
  | .illegalCmd => 0x1
  | .valPduLen => 0x2
  | .valUnit => 0x3
  | .frmChecksum => 0x4
  | .frmHex => 0x5
  | .frmTerminator => 0x6
  | .frmHeader => 0x7
  | .frmLength => 0x8
  | .trnTid => 0x9
  | .codWcnt => 0xA
  | .codType => 0xB
  | .bufOverflow => 0xC

/-- STATUS.ERR: ERRCODE ≠ 0 (R24). -/
def errFlag (s : State) : Bool := s.errcode.number != 0

/-- STATUS.RXOK: FLEN ≥ 4 and CRC = 0x0000 (R25). -/
def rxok (s : State) : Bool := 4 ≤ s.flen.toNat && s.crc == 0

/-- STATUS: BUSY [0], ERR [1], ERRCODE [7:4], RXOK [8], the rest 0 (R22). -/
def statusWord (s : State) : Word32 :=
  (BitVec.ofBool s.busy).setWidth 32
    ||| ((BitVec.ofBool (errFlag s)).setWidth 32 <<< 1)
    ||| (s.errcode.number.setWidth 32 <<< 4)
    ||| ((BitVec.ofBool (rxok s)).setWidth 32 <<< 8)

/-- The LRC register: SUM [7:0], LRC [15:8], the rest 0 (R27). -/
def lrcWord (s : State) : Word32 := (be16 (lrcOfSum s.sum) s.sum).setWidth 32

end Sys2Proof.Machine
end

