-- ==== Sys2Proof/Machine/Ops.lean ====
section
/-! DEFINITION. The named operations over buffers and registers (R37, R62 to R66), issuing a command and ending one
(R226), and the two resets (R210, R251). -/

namespace Sys2Proof.Machine

/-! Memory: the written buffer bytes, by window offset, strictly rising (log 5). -/

/-- What an unlisted address reads as: nothing, it is unwritten (R39, log 4). -/
def Memory.unlisted : Option Byte := none

/-- The byte at an address. -/
def Memory.read : List Host.Cell → Nat → Option Byte
  | [], _ => Memory.unlisted
  | (b, x) :: m, a => if b = a then some x else Memory.read m a

/-- Write one byte, keeping the addresses rising. -/
def Memory.write : List Host.Cell → Nat → Byte → List Host.Cell
  | [], a, v => [(a, v)]
  | (b, x) :: m, a, v =>
    if a < b then (a, v) :: (b, x) :: m else if b = a then (a, v) :: m else (b, x) :: Memory.write m a v

/-- Write bytes from an address up. -/
def Memory.writeBytes (m : List Host.Cell) (a : Nat) : List Byte → List Host.Cell
  | [] => m
  | v :: vs => Memory.writeBytes (Memory.write m a v) (a + 1) vs

/-- The canonical form: addresses strictly rising (log 5). -/
def Memory.wf : List Host.Cell → Bool
  | [] => true
  | [_] => true
  | (a, _) :: (b, y) :: m => a < b && Memory.wf ((b, y) :: m)

/-- `BufRead(B, i)` (R66): an unwritten byte is a model fault. -/
def bufRead (s : State) (b : Buffer) (i : Nat) : Except Stop Byte :=
  match Memory.read s.mem (b.addr i) with
  | some x => .ok x
  | none => .error (.fault (.unwrittenRead b i))

/-- `[BufRead(B, j) for j in i..i+n-1]`, in this order (R11, R66). -/
def bufReads (s : State) (b : Buffer) (i : Nat) : Nat → Except Stop (List Byte)
  | 0 => .ok []
  | n + 1 => (bufRead s b i).bind fun x => (bufReads s b (i + 1) n).map fun xs => x :: xs

/-- `for j in 0..len(v)-1: BufWrite(B, i + j, v[j])` (R66). -/
def bufWrites (s : State) (b : Buffer) (i : Nat) (v : List Byte) : State :=
  { s with mem := Memory.writeBytes s.mem (b.addr i) v }

/-! Issuing and ending a command (R226). -/

/-- LATENCY of the command now issued: the environment's where it fixes one, else the free value (log 1). -/
def nextLatency (s : State) : Nat :=
  match s.latencies with
  | n :: _ => n
  | [] => Config.latency s.issued

/-- `issue(c)` (R21, R226). -/
def issue (c : Word32) (s : State) : State :=
  { s with cmdlatch := c, busy := true, errcode := .ok, wait := nextLatency s, latencies := s.latencies.tail,
           issued := s.issued + 1 }

/-- The engine's turn: BUSY = 1 and LATENCY has passed (R226, log 1). -/
def engineReady (s : State) : Bool := s.busy && s.wait == 0

/-- `raise Err(code)` (R11). -/
def raise {α : Type} (c : ErrCode) : Except Stop α := .error (.err c)

/-- A result code and BUSY <- 0: all that completion itself writes (R226). -/
def withResult (s : State) (c : ErrCode) : State := { s with errcode := c, busy := false }

/-- `complete()` once the word is decoded (R226): a rule that ran gives all its effects and OK; a rule that raised gives
its code and none of its effects (R224); a model fault stops the machine (R225). This is the block's only exception:
there is no trap (R220). -/
def complete (s : State) (r : Except Stop State) : Host.Outcome State Fault Refusal :=
  match r with
  | .ok t => .next (withResult t .ok)
  | .error (.err c) => .next (withResult s c)
  | .error (.fault f) => .fault f

/-- The completion of an illegal word (R89, R226). -/
def completeIllegal (s : State) : Host.Outcome State Fault Refusal := complete s (raise .illegalCmd)

/-! Resets. -/

/-- Every register and CMDLATCH at its value of R42, the buffers as they are (R42, R210); BUSY and ERRCODE are the
completion's to write (R226). That CMDLATCH is among them is R42's word, which R210's list leaves out (log 14). -/
def resetRegisters (s : State) : State :=
  { s with cmdlatch := 0x00000000, crc := 0xFFFF, sum := 0x00, unit := 0x00, tid := 0x0000, plen := 0, flen := 0,
           val := 0, w0 := 0, w1 := 0, w2 := 0, w3 := 0, wcnt := 0 }

/-- Power-on reset (R251): the state of R42, a command in progress abandoned; the environment goes on (log 9). -/
def powerOnReset (s : State) : State :=
  { State.reset with host := s.host, reads := s.reads, latencies := s.latencies, issued := s.issued }

/-! Registers as the host sees them (R20 to R34, R37). -/

/-- A 32-bit register read (R62): no side effect (R37); reserved bits read 0. -/
def readReg (s : State) : Reg → Word32
  | .cmd => 0x00000000
  | .status => statusWord s
  | .crc => s.crc.setWidth 32
  | .lrc => lrcWord s
  | .unit => s.unit.setWidth 32
  | .tid => s.tid.setWidth 32
  | .plen => s.plen.setWidth 32
  | .flen => s.flen.setWidth 32
  | .valLo => s.val.extractLsb' 0 32
  | .valHi => s.val.extractLsb' 32 32
  | .w01 => s.w1 ++ s.w0
  | .w23 => s.w3 ++ s.w2
  | .wcnt => s.wcnt.setWidth 32

/-- A 32-bit register write (R62): the RW fields take the value's low bits, RO and reserved bits ignore it (R37); a
write to CMD issues a command (R21). -/
def writeReg (s : State) (r : Reg) (v : Word32) : State :=
  match r with
  | .cmd => issue v s
  | .status => s
  | .crc => { s with crc := v.setWidth 16 }
  | .lrc => { s with sum := v.setWidth 8 }
  | .unit => { s with unit := v.setWidth 8 }
  | .tid => { s with tid := v.setWidth 16 }
  | .plen => { s with plen := v.setWidth 9 }
  | .flen => { s with flen := v.setWidth 10 }
  | .valLo => { s with val := s.val.extractLsb' 32 32 ++ v }
  | .valHi => { s with val := v ++ s.val.extractLsb' 0 32 }
  | .w01 => { s with w0 := v.extractLsb' 0 16, w1 := v.extractLsb' 16 16 }
  | .w23 => { s with w2 := v.extractLsb' 0 16, w3 := v.extractLsb' 16 16 }
  | .wcnt => { s with wcnt := v.setWidth 3 }

/-- W[0..4) (R33). -/
def words (s : State) : List Word16 := [s.w0, s.w1, s.w2, s.w3]

/-- W[i] <- v[i] for i in 0..len(v)-1; the words above are left (R190). -/
def writeWords (s : State) (v : List Word16) : State :=
  { s with w0 := v.getD 0 s.w0, w1 := v.getD 1 s.w1, w2 := v.getD 2 s.w2, w3 := v.getD 3 s.w3 }

end Sys2Proof.Machine
end

