-- ==== Sys2Proof/Machine/Checksum.lean ====
section
/-! DEFINITION. The accumulator commands (R110 to R113). -/

namespace Sys2Proof.Machine

/-- CRC.INIT (R110). -/
def execCrcInit (s : State) : Host.Outcome State Fault Refusal :=
  complete s (.ok { s with crc := 0xFFFF })

/-- CRC.UPD b (R111). -/
def execCrcUpd (b : Byte) (s : State) : Host.Outcome State Fault Refusal :=
  complete s (.ok { s with crc := crcByte s.crc b })

/-- LRC.INIT (R112). -/
def execLrcInit (s : State) : Host.Outcome State Fault Refusal :=
  complete s (.ok { s with sum := 0x00 })

/-- LRC.UPD b (R113): the sum wraps modulo 256. -/
def execLrcUpd (b : Byte) (s : State) : Host.Outcome State Fault Refusal :=
  complete s (.ok { s with sum := s.sum + b })

end Sys2Proof.Machine
end

