-- ==== Sys2Proof/Machine/Codec.lean ====
section
/-! DEFINITION. The byte-order codec (R180 to R193). -/

namespace Sys2Proof.Machine

/-- The words VAL.PACK writes: for BOOL its low 16 bits, whatever the order (R186); else the value bytes in the order
asked for (R181, R182). -/
def packedWords (t : ValType) (o : ByteOrder) (v : BitVec 64) : List Word16 :=
  match t with
  | .bool => [v.extractLsb' 0 16]
  | .u16 | .i16 | .u32 | .i32 | .f32 | .f64 => wordsOf o (valWidth t) (valueBytes (2 * valWidth t) v)

/-- VAL.PACK's rule (R190). -/
def ruleValPack (t : ValType) (o : ByteOrder) (s : State) : Except Stop State :=
  if canonical t s.val then
    .ok { writeWords s (packedWords t o s.val) with wcnt := BitVec.ofNat 3 (valWidth t) }
  else raise .codType

/-- The value VAL.UNPACK reads from W[0..k): for BOOL the word 0 or 1 and no other, whatever the order (R186). -/
def unpackedValue (t : ValType) (o : ByteOrder) (ws : List Word16) : Option (BitVec 64) :=
  match t with
  | .bool => if 1 < (ws.getD 0 0).toNat then none else some ((ws.getD 0 0).setWidth 64)
  | .u16 | .i16 | .u32 | .i32 | .f32 | .f64 => some (extendValue t (valueOf (bytesOf o (valWidth t) ws)))

/-- VAL.UNPACK's rule (R191). -/
def ruleValUnpack (t : ValType) (o : ByteOrder) (s : State) : Except Stop State :=
  if s.wcnt.toNat ≠ valWidth t then raise .codWcnt
  else
    match unpackedValue t o (words s) with
    | some v => .ok { s with val := v }
    | none => raise .codType

/-- VAL.PACK t, o (R190). -/
def execValPack (t : ValType) (o : ByteOrder) (s : State) : Host.Outcome State Fault Refusal :=
  complete s (ruleValPack t o s)

/-- VAL.UNPACK t, o (R191). -/
def execValUnpack (t : ValType) (o : ByteOrder) (s : State) : Host.Outcome State Fault Refusal :=
  complete s (ruleValUnpack t o s)

end Sys2Proof.Machine
end

