-- ==== Sys2Proof/Machine/Control.lean ====
section
/-! DEFINITION. The control command (R210). -/

namespace Sys2Proof.Machine

/-- SRST (R210): the registers and CMDLATCH at their reset values (log 14); the buffers and their written
marks stay. -/
def execSrst (s : State) : Host.Outcome State Fault Refusal := complete s (.ok (resetRegisters s))

end Sys2Proof.Machine
end

