-- ==== Sys2Proof/Machine/Deframe.lean ====
section
/-! DEFINITION. The deframe commands DFR.TCP, DFR.RTU and DFR.ASC (R150 to R159): the checks in the order of R229. -/

namespace Sys2Proof.Machine

/-- The frame FBUF[0..FLEN), all of it, once FLEN is within the command's bounds (R150, D37). -/
def readFrame (s : State) (lo hi : Nat) : Except Stop (List Byte) :=
  if s.flen.toNat < lo ∨ hi < s.flen.toNat then raise .frmLength else bufReads s .fbuf 0 s.flen.toNat

/-- `commit_rx(u, q)` (R150). -/
def commitRx (s : State) (u : Byte) (q : List Byte) : State :=
  { bufWrites s .pbuf 0 q with unit := u, plen := BitVec.ofNat 9 q.length }

/-- DFR.TCP's checks and effects on a whole frame (R151, R152). -/
def parseTcp (chk : Bool) (s : State) (f : List Byte) : Except Stop State :=
  if be16 (byteAt f 2) (byteAt f 3) ≠ 0 then raise .frmHeader
  else if (be16 (byteAt f 4) (byteAt f 5)).toNat ≠ f.length - 6 then raise .frmHeader
  else if Config.unitMax < (byteAt f 6).toNat then raise .frmHeader
  else if chk = true ∧ be16 (byteAt f 0) (byteAt f 1) ≠ s.tid then raise .trnTid
  else .ok { commitRx s (byteAt f 6) (slice f 7 f.length) with tid := be16 (byteAt f 0) (byteAt f 1) }

/-- DFR.TCP's rule (R151): 7 bytes of MBAP and a PDU of 1 to 253. -/
def ruleDfrTcp (chk : Bool) (s : State) : Except Stop State := (readFrame s 8 260).bind (parseTcp chk s)

/-- DFR.RTU's checks and effects on a whole frame (R155): the CRC was sent low byte first. -/
def parseRtu (s : State) (f : List Byte) : Except Stop State :=
  let n := f.length
  if crc16 (slice f 0 (n - 2)) ≠ be16 (byteAt f (n - 1)) (byteAt f (n - 2)) then raise .frmChecksum
  else if Config.unitMax < (byteAt f 0).toNat then raise .frmHeader
  else .ok { commitRx s (byteAt f 0) (slice f 1 (n - 2)) with crc := crc16 (slice f 0 (n - 2)) }

/-- DFR.RTU's rule (R155): unit id, a PDU of 1 to 253 and 2 bytes of CRC. -/
def ruleDfrRtu (s : State) : Except Stop State := (readFrame s 4 256).bind (parseRtu s)

/-- DFR.ASC's checks and effects on the decoded bytes `d`, unit id, PDU and LRC (R159). -/
def parseAscBytes (s : State) (d : List Byte) : Except Stop State :=
  let m := d.length
  if lrcSum d ≠ 0 then raise .frmChecksum
  else if Config.unitMax < (byteAt d 0).toNat then raise .frmHeader
  else .ok { commitRx s (byteAt d 0) (slice d 1 (m - 1)) with sum := lrcSum (slice d 0 (m - 1)) }

/-- DFR.ASC's checks on a whole frame, and its effects (R159). -/
def parseAsc (s : State) (f : List Byte) : Except Stop State :=
  let n := f.length
  if byteAt f 0 ≠ 0x3A then raise .frmHeader
  else if byteAt f (n - 2) ≠ 0x0D ∨ byteAt f (n - 1) ≠ 0x0A then raise .frmTerminator
  else if (n - 3) % 2 = 1 then raise .frmHex
  else
    match hexDecode (slice f 1 (n - 2)) with
    | none => raise .frmHex
    | some d => parseAscBytes s d

/-- DFR.ASC's rule (R159): ':', the hex of 3 to 255 bytes, CR and LF. -/
def ruleDfrAsc (s : State) : Except Stop State := (readFrame s 9 513).bind (parseAsc s)

/-- DFR.TCP and DFR.TCP.CHK (R151). -/
def execDfrTcp (chk : Bool) (s : State) : Host.Outcome State Fault Refusal := complete s (ruleDfrTcp chk s)

/-- DFR.RTU (R155). -/
def execDfrRtu (s : State) : Host.Outcome State Fault Refusal := complete s (ruleDfrRtu s)

/-- DFR.ASC (R159). -/
def execDfrAsc (s : State) : Host.Outcome State Fault Refusal := complete s (ruleDfrAsc s)

end Sys2Proof.Machine
end

