-- ==== Sys2Proof/Machine/Frame.lean ====
section
/-! DEFINITION. The frame commands FRM.TCP, FRM.RTU and FRM.ASC (R130 to R144). -/

namespace Sys2Proof.Machine

/-- `check_tx()` (R132): the PDU, after its length and the unit id are checked, in this order. -/
def checkTx (s : State) : Except Stop (List Byte) :=
  if s.plen.toNat < Config.minPdu ∨ Config.maxPdu < s.plen.toNat then raise .valPduLen
  else if Config.unitMax < s.unit.toNat then raise .valUnit
  else bufReads s .pbuf 0 s.plen.toNat

/-- The MBAP frame of a transaction id, a unit and a PDU (R134, R135, log 11): the length counts the unit id and the
PDU. -/
def mbapFrame (tid : Word16) (u : Byte) (p : List Byte) : List Byte :=
  [hi8 tid, lo8 tid, 0x00, 0x00, hi8 (BitVec.ofNat 16 (p.length + 1)), lo8 (BitVec.ofNat 16 (p.length + 1)), u] ++ p

/-- The CRC an RTU frame carries: over the unit id and the PDU, afresh (R102, R133). -/
def rtuCrc (u : Byte) (p : List Byte) : Word16 := crc16 (u :: p)

/-- The RTU frame of a unit and a PDU (R138, R139): the CRC low byte first. -/
def rtuFrame (u : Byte) (p : List Byte) : List Byte := (u :: p) ++ [lo8 (rtuCrc u p), hi8 (rtuCrc u p)]

/-- The raw bytes of an ASCII frame: unit id, PDU and LRC (R105, R142, R144). -/
def ascBytes (u : Byte) (p : List Byte) : List Byte := (u :: p) ++ [lrc (u :: p)]

/-- The ASCII frame of a unit and a PDU (R142, R144): ':', the hex of the raw bytes, CR, LF. -/
def ascFrame (u : Byte) (p : List Byte) : List Byte := [0x3A] ++ hexEncode (ascBytes u p) ++ [0x0D, 0x0A]

/-- A frame laid into FBUF from index 0, and its length into FLEN (R130). -/
def putFrame (s : State) (f : List Byte) : State :=
  { bufWrites s .fbuf 0 f with flen := BitVec.ofNat 10 f.length }

/-- The transaction id FRM.TCP sends: incremented first with .INC (R136). -/
def txTid (inc : Bool) (s : State) : Word16 := if inc then s.tid + 1 else s.tid

/-- FRM.TCP's rule (R134). -/
def ruleFrmTcp (inc : Bool) (s : State) : Except Stop State :=
  (checkTx s).map fun p => { putFrame s (mbapFrame (txTid inc s) s.unit p) with tid := txTid inc s }

/-- FRM.RTU's rule (R138). -/
def ruleFrmRtu (s : State) : Except Stop State :=
  (checkTx s).map fun p => { putFrame s (rtuFrame s.unit p) with crc := rtuCrc s.unit p }

/-- FRM.ASC's rule (R142). -/
def ruleFrmAsc (s : State) : Except Stop State :=
  (checkTx s).map fun p => { putFrame s (ascFrame s.unit p) with sum := lrcSum (s.unit :: p) }

/-- FRM.TCP and FRM.TCP.INC (R134). -/
def execFrmTcp (inc : Bool) (s : State) : Host.Outcome State Fault Refusal := complete s (ruleFrmTcp inc s)

/-- FRM.RTU (R138). -/
def execFrmRtu (s : State) : Host.Outcome State Fault Refusal := complete s (ruleFrmRtu s)

/-- FRM.ASC (R142). -/
def execFrmAsc (s : State) : Host.Outcome State Fault Refusal := complete s (ruleFrmAsc s)

end Sys2Proof.Machine
end

