-- ==== Sys2Proof/Machine/Receive.lean ====
section
/-! DEFINITION. The receive accumulator (R170, R171). -/

namespace Sys2Proof.Machine

/-- RX.RST (R170): FBUF keeps its bytes. -/
def execRxRst (s : State) : Host.Outcome State Fault Refusal :=
  complete s (.ok { s with flen := 0, crc := 0xFFFF })

/-- RX.APP's rule (R171). -/
def ruleRxApp (b : Byte) (s : State) : Except Stop State :=
  if Config.fbufSize ≤ s.flen.toNat then raise .bufOverflow
  else .ok { bufWrites s .fbuf s.flen.toNat [b] with flen := s.flen + 1, crc := crcByte s.crc b }

/-- RX.APP b (R171). -/
def execRxApp (b : Byte) (s : State) : Host.Outcome State Fault Refusal := complete s (ruleRxApp b s)

end Sys2Proof.Machine
end

