-- ==== Sys2Proof/Machine/Dispatch.lean ====
section
/-! DEFINITION. The completion of a decoded command: one arm per constructor (R87, R226). -/

namespace Sys2Proof.Machine

def exec (i : Instr) (s : State) : Host.Outcome State Fault Refusal :=
  match i with
  | .crcInit => Sys2Proof.Machine.execCrcInit s
  | .crcUpd b => Sys2Proof.Machine.execCrcUpd b s
  | .lrcInit => Sys2Proof.Machine.execLrcInit s
  | .lrcUpd b => Sys2Proof.Machine.execLrcUpd b s
  | .frmTcp inc => Sys2Proof.Machine.execFrmTcp inc s
  | .frmRtu => Sys2Proof.Machine.execFrmRtu s
  | .frmAsc => Sys2Proof.Machine.execFrmAsc s
  | .dfrTcp chk => Sys2Proof.Machine.execDfrTcp chk s
  | .dfrRtu => Sys2Proof.Machine.execDfrRtu s
  | .dfrAsc => Sys2Proof.Machine.execDfrAsc s
  | .rxRst => Sys2Proof.Machine.execRxRst s
  | .rxApp b => Sys2Proof.Machine.execRxApp b s
  | .valPack t o => Sys2Proof.Machine.execValPack t o s
  | .valUnpack t o => Sys2Proof.Machine.execValUnpack t o s
  | .srst => Sys2Proof.Machine.execSrst s

end Sys2Proof.Machine
end

