-- ==== Sys2Proof/WellFormed.lean ====
section
/-! DEFINITION. Which command words are well formed, said field by field from R81, R82, R84 and R89, apart from the
match and mask table the decoder uses (R87, Decode.lean). Every term of Instr stands for a well-formed word: its
operand types admit no other (TYPE = 7 has no ValType). -/

namespace Sys2Proof

/-- A command word split into its fields (R81). -/
structure Fields where
  /-- OP, bits [7:0]. -/
  op : BitVec 8
  /-- IMM8, bits [15:8]. -/
  imm8 : BitVec 8
  /-- TYPE, bits [18:16]. -/
  type : BitVec 3
  /-- Reserved, bit [19]. -/
  res19 : BitVec 1
  /-- ORDER, bits [21:20]. -/
  order : BitVec 2
  /-- Reserved, bits [23:22]. -/
  res22 : BitVec 2
  /-- OPT, bit [24]. -/
  opt : BitVec 1
  /-- Reserved, bits [31:25]. -/
  res25 : BitVec 7
deriving DecidableEq, Repr

/-- The OP values that are assigned; all others are listed as illegal in R89. -/
def opAssigned (op : BitVec 8) : Bool :=
  [0x01#8, 0x02#8, 0x03#8, 0x04#8, 0x10#8, 0x11#8, 0x12#8, 0x18#8, 0x19#8, 0x1A#8, 0x20#8, 0x21#8, 0x30#8, 0x31#8,
    0xFF#8].contains op

/-- CRC.UPD, LRC.UPD and RX.APP use IMM8 (R82, R83). -/
def usesImm8 (op : BitVec 8) : Bool := [0x02#8, 0x04#8, 0x21#8].contains op

/-- VAL.PACK and VAL.UNPACK use TYPE and ORDER (R82). -/
def usesType (op : BitVec 8) : Bool := [0x30#8, 0x31#8].contains op

/-- FRM.TCP and DFR.TCP use OPT (R82, R86). -/
def usesOpt (op : BitVec 8) : Bool := [0x10#8, 0x18#8].contains op

/-- The reserved bits [19], [23:22] and [31:25] are 0 (R82). -/
def Fields.reservedZero (f : Fields) : Bool := f.res19 == 0 && f.res22 == 0 && f.res25 == 0

/-- Every field the command does not use is 0 (R82). -/
def Fields.unusedZero (f : Fields) : Bool :=
  (usesImm8 f.op || f.imm8 == 0) && (usesType f.op || (f.type == 0 && f.order == 0)) && (usesOpt f.op || f.opt == 0)

/-- TYPE is not the reserved value 7 (R84). -/
def Fields.typeLegal (f : Fields) : Bool := f.type != 7

/-- A well-formed command word: every other one is illegal (R89). -/
def Fields.wellFormed (f : Fields) : Bool :=
  opAssigned f.op && f.reservedZero && f.unusedZero && f.typeLegal

end Sys2Proof
end

