-- ==== Sys2Proof/Decode.lean ====
section
/-! DEFINITION. From a 32-bit command word to a command (R80 to R92) and back (R95). -/

namespace Sys2Proof

/-- The field split of R81. -/
def fieldsOf (c : Word32) : Fields :=
  { op := c.extractLsb' 0 8, imm8 := c.extractLsb' 8 8, type := c.extractLsb' 16 3, res19 := c.extractLsb' 19 1,
    order := c.extractLsb' 20 2, res22 := c.extractLsb' 22 2, opt := c.extractLsb' 24 1, res25 := c.extractLsb' 25 7 }

/-- TYPE (R84); 7 is reserved. -/
def ValType.ofCode (t : BitVec 3) : Option ValType :=
  match t.toNat with
  | 0 => some .u16
  | 1 => some .i16
  | 2 => some .u32
  | 3 => some .i32
  | 4 => some .f32
  | 5 => some .f64
  | 6 => some .bool
  | _ => none

/-- TYPE's number (R84). -/
def ValType.code : ValType → BitVec 3
  | .u16 => 0
  | .i16 => 1
  | .u32 => 2
  | .i32 => 3
  | .f32 => 4
  | .f64 => 5
  | .bool => 6

/-- ORDER (R85); all four values are legal. -/
def ByteOrder.ofCode (o : BitVec 2) : ByteOrder :=
  match o.toNat with
  | 0 => .be
  | 1 => .le
  | 2 => .bews
  | _ => .lews

/-- ORDER's number (R85). -/
def ByteOrder.code : ByteOrder → BitVec 2
  | .be => 0
  | .le => 1
  | .bews => 2
  | .lews => 3

/-- Why a word is illegal (R89): by name, for a reader; the block reports one code for all three. -/
inductive Illegal where
  /-- OP is not in the table of R87. -/
  | unassignedOp
  /-- A reserved bit or a field the command does not use is not 0 (R82). -/
  | nonzeroField
  /-- TYPE = 7 (R84). -/
  | reservedType
deriving DecidableEq, Repr

/-- A row of the opcode map (R87): what `(c AND mask) = match` tests, and the command it stands for. -/
structure Row where
  /-- `match` of R87. -/
  pat : Word32
  /-- `mask` of R87. -/
  mask : Word32
  /-- The command, from the word's operand fields (R88). -/
  cmd : Fields → Except Illegal Instr

/-- The test of R87. -/
def Row.hits (r : Row) (c : Word32) : Bool := c &&& r.mask == r.pat

/-- The codec rows' command: TYPE = 7 is illegal (R88). -/
def withType (f : Fields) (mk : ValType → ByteOrder → Instr) : Except Illegal Instr :=
  match ValType.ofCode f.type with
  | some t => .ok (mk t (ByteOrder.ofCode f.order))
  | none => .error .reservedType

/-- The opcode map (R87). -/
def rows : List Row :=
  [ { pat := 0x00000001, mask := 0xFFFFFFFF, cmd := fun _ => .ok .crcInit },
    { pat := 0x00000002, mask := 0xFFFF00FF, cmd := fun f => .ok (.crcUpd f.imm8) },
    { pat := 0x00000003, mask := 0xFFFFFFFF, cmd := fun _ => .ok .lrcInit },
    { pat := 0x00000004, mask := 0xFFFF00FF, cmd := fun f => .ok (.lrcUpd f.imm8) },
    { pat := 0x00000010, mask := 0xFEFFFFFF, cmd := fun f => .ok (.frmTcp (f.opt == 1)) },
    { pat := 0x00000011, mask := 0xFFFFFFFF, cmd := fun _ => .ok .frmRtu },
    { pat := 0x00000012, mask := 0xFFFFFFFF, cmd := fun _ => .ok .frmAsc },
    { pat := 0x00000018, mask := 0xFEFFFFFF, cmd := fun f => .ok (.dfrTcp (f.opt == 1)) },
    { pat := 0x00000019, mask := 0xFFFFFFFF, cmd := fun _ => .ok .dfrRtu },
    { pat := 0x0000001A, mask := 0xFFFFFFFF, cmd := fun _ => .ok .dfrAsc },
    { pat := 0x00000020, mask := 0xFFFFFFFF, cmd := fun _ => .ok .rxRst },
    { pat := 0x00000021, mask := 0xFFFF00FF, cmd := fun f => .ok (.rxApp f.imm8) },
    { pat := 0x00000030, mask := 0xFFC8FFFF, cmd := fun f => withType f .valPack },
    { pat := 0x00000031, mask := 0xFFC8FFFF, cmd := fun f => withType f .valUnpack },
    { pat := 0x000000FF, mask := 0xFFFFFFFF, cmd := fun _ => .ok .srst } ]

/-- The name of the reason for a word no row accepts (R89). -/
def illegalReason (f : Fields) : Illegal := if opAssigned f.op then .nonzeroField else .unassignedOp

/-- R88: total over all 2^32 words; the first row that hits, and ILLEGAL where none does. -/
def decode (c : Word32) : Except Illegal Instr :=
  match rows.find? (fun r => r.hits c) with
  | some r => r.cmd (fieldsOf c)
  | none => .error (illegalReason (fieldsOf c))

/-- The decoder on an instruction's bits as spec/opcode_table.json numbers them: a command is one 32-bit word (R80), so
the bits above `nbits` are 0 and there is nothing above bit 31. -/
def decodeTableWord (nbits w : Nat) : Option Instr :=
  match decode (BitVec.ofNat 32 (w % 2 ^ nbits)) with
  | .ok i => some i
  | .error _ => none

/-- `0x… OR b << 8` of R95. -/
def withImm8 (op : Word32) (b : Byte) : Word32 := op ||| (b.setWidth 32 <<< 8)

/-- `0x… OR t << 16 OR o << 20` of R95. -/
def withTypeOrder (op : Word32) (t : ValType) (o : ByteOrder) : Word32 :=
  op ||| (t.code.setWidth 32 <<< 16) ||| (o.code.setWidth 32 <<< 20)

/-- The word of each command (R95). -/
def encode : Instr → Word32
  | .crcInit => 0x00000001
  | .crcUpd b => withImm8 0x00000002 b
  | .lrcInit => 0x00000003
  | .lrcUpd b => withImm8 0x00000004 b
  | .frmTcp false => 0x00000010
  | .frmTcp true => 0x01000010
  | .frmRtu => 0x00000011
  | .frmAsc => 0x00000012
  | .dfrTcp false => 0x00000018
  | .dfrTcp true => 0x01000018
  | .dfrRtu => 0x00000019
  | .dfrAsc => 0x0000001A
  | .rxRst => 0x00000020
  | .rxApp b => withImm8 0x00000021 b
  | .valPack t o => withTypeOrder 0x00000030 t o
  | .valUnpack t o => withTypeOrder 0x00000031 t o
  | .srst => 0x000000FF

/-- A type's mnemonic (R84). -/
def ValType.mnemonic : ValType → String
  | .u16 => "U16"
  | .i16 => "I16"
  | .u32 => "U32"
  | .i32 => "I32"
  | .f32 => "F32"
  | .f64 => "F64"
  | .bool => "BOOL"

/-- A byte order's mnemonic (R85). -/
def ByteOrder.mnemonic : ByteOrder → String
  | .be => "BE"
  | .le => "LE"
  | .bews => "BEWS"
  | .lews => "LEWS"

/-- The assembler syntax of each command, numbers in decimal (R95). -/
def assembly : Instr → String
  | .crcInit => "CRC.INIT"
  | .crcUpd b => "CRC.UPD " ++ toString b.toNat
  | .lrcInit => "LRC.INIT"
  | .lrcUpd b => "LRC.UPD " ++ toString b.toNat
  | .frmTcp false => "FRM.TCP"
  | .frmTcp true => "FRM.TCP.INC"
  | .frmRtu => "FRM.RTU"
  | .frmAsc => "FRM.ASC"
  | .dfrTcp false => "DFR.TCP"
  | .dfrTcp true => "DFR.TCP.CHK"
  | .dfrRtu => "DFR.RTU"
  | .dfrAsc => "DFR.ASC"
  | .rxRst => "RX.RST"
  | .rxApp b => "RX.APP " ++ toString b.toNat
  | .valPack t o => "VAL.PACK " ++ t.mnemonic ++ ", " ++ o.mnemonic
  | .valUnpack t o => "VAL.UNPACK " ++ t.mnemonic ++ ", " ++ o.mnemonic
  | .srst => "SRST"

end Sys2Proof
end

