-- ==== Sys2Proof/Machine/HostAccess.lean ====
section
/-! DEFINITION. The host's side of a step (R62 to R65, R70, R227, R239) and the host's pseudo-operations (R96). -/

namespace Sys2Proof.Machine

/-- One more value the host has read (R261, log 3). -/
def logRead (s : State) (v : Word32) : State := { s with reads := s.reads ++ [v] }

/-- One host-observable step of LATENCY passes (R7, log 1). -/
def tick (s : State) : State := { s with wait := s.wait - 1 }

/-- The oldest host operation is done (R70, log 2). -/
def popHost (s : State) : State := { s with host := s.host.tail }

/-- A 32-bit read (R62, R64). -/
def hostRead (s : State) (off : Offset) : Host.Outcome State Fault Refusal :=
  match Reg.ofOffset off with
  | some r => .next (logRead s (readReg s r))
  | none => .fault (.busError off)

/-- A 32-bit write (R62, R64). -/
def hostWrite (s : State) (off : Offset) (v : Word32) : Host.Outcome State Fault Refusal :=
  match Reg.ofOffset off with
  | some r => .next (writeReg s r v)
  | none => .fault (.busError off)

/-- An 8-bit read (R63, R64); the value read is logged zero-extended (log 3). -/
def hostReadByte (s : State) (off : Offset) : Host.Outcome State Fault Refusal :=
  match Buffer.ofOffset off with
  | none => .fault (.busError off)
  | some (b, i) =>
    match Memory.read s.mem (b.addr i) with
    | some x => .next (logRead s (x.setWidth 32))
    | none => .fault (.unwrittenRead b i)

/-- An 8-bit write (R63, R64). -/
def hostWriteByte (s : State) (off : Offset) (v : Byte) : Host.Outcome State Fault Refusal :=
  match Buffer.ofOffset off with
  | none => .fault (.busError off)
  | some (b, i) => .next (bufWrites s b i [v])

/-- A host operation while BUSY = 0 (R239); a WAIT reads STATUS once and ends (R96). -/
def hostIdle (op : HostOp) (s : State) : Host.Outcome State Fault Refusal :=
  match op with
  | .rd off => hostRead s off
  | .wr off v => hostWrite s off v
  | .rdb off => hostReadByte s off
  | .wrb off v => hostWriteByte s off v
  | .rdh off => .fault (.busError off)
  | .wrh off _ => .fault (.busError off)
  | .wait => .next (logRead s (statusWord s))
  | .powerOnReset => .next (powerOnReset s)

/-- A host operation while BUSY = 1 and the engine is not ready (R227): a STATUS read, or a reset, goes on; a WAIT reads
STATUS, finds BUSY = 1 and stays (R96); every other access is a busy violation, also where it would be a bus error (log 6). -/
def hostBusy (op : HostOp) (s : State) : Host.Outcome State Fault Refusal :=
  match op with
  | .rd off =>
    if off = Reg.status.offset then .next (tick (logRead (popHost s) (statusWord s))) else .fault (.busyViolation off)
  | .wr off _ => .fault (.busyViolation off)
  | .rdb off => .fault (.busyViolation off)
  | .wrb off _ => .fault (.busyViolation off)
  | .rdh off => .fault (.busyViolation off)
  | .wrh off _ => .fault (.busyViolation off)
  | .wait => .next (tick (logRead s (statusWord s)))
  | .powerOnReset => .next (powerOnReset (popHost s))

/-- The host's step: its oldest operation, or nothing where it has none and the block stays as it is (R70, R237, R252,
log 2). -/
def hostStep (s : State) : Host.Outcome State Fault Refusal :=
  match s.host with
  | [] => .next (tick s)
  | op :: _ => if s.busy then hostBusy op s else hostIdle op (popHost s)

/-- The state with a host program to run, and the latencies of its first commands (log 2, log 1). -/
def withProgram (s : State) (ops : List HostOp) (latencies : List Nat) : State :=
  { s with host := ops, latencies := latencies }

/-- The state just after command word `c` was issued, with no LATENCY left: the engine's turn (R226, log 2). -/
def withCommand (s : State) (c : Word32) : State :=
  { s with cmdlatch := c, busy := true, errcode := .ok, wait := 0 }

/-! Pseudo-operations (R12, R96). -/

/-- `CMD x` (R12). -/
def cmdOp (i : Instr) : HostOp := .wr Reg.cmd.offset (encode i)

/-- `CMDW x` (R96). -/
def cmdw (i : Instr) : List HostOp := [cmdOp i, .wait]

/-- `WRB B+j, b` for each byte, from byte `i` of the buffer up (R12). -/
def wrbAll (b : Buffer) (i : Nat) : List Byte → List HostOp
  | [] => []
  | v :: vs => .wrb (BitVec.ofNat 12 (b.addr i)) v :: wrbAll b (i + 1) vs

/-- `LOADPDU u; b0, ...` (R96). -/
def loadPdu (u : Byte) (bs : List Byte) : List HostOp :=
  .wr Reg.unit.offset (u.setWidth 32) :: (wrbAll .pbuf 0 bs ++ [.wr Reg.plen.offset (BitVec.ofNat 32 bs.length)])

/-- `LOADFRAME b0, ...` (R96). -/
def loadFrame (bs : List Byte) : List HostOp :=
  wrbAll .fbuf 0 bs ++ [.wr Reg.flen.offset (BitVec.ofNat 32 bs.length)]

/-- `CRC.BYTES b0, ...` (R96). -/
def crcBytes (bs : List Byte) : List HostOp := bs.flatMap fun b => cmdw (.crcUpd b)

/-- `LRC.BYTES b0, ...` (R96). -/
def lrcBytes (bs : List Byte) : List HostOp := bs.flatMap fun b => cmdw (.lrcUpd b)

/-- `RX.BYTES b0, ...` (R96). -/
def rxBytes (bs : List Byte) : List HostOp := bs.flatMap fun b => cmdw (.rxApp b)

/-- `WRVAL v` (R96). -/
def wrVal (v : BitVec 64) : List HostOp :=
  [.wr Reg.valLo.offset (v.extractLsb' 0 32), .wr Reg.valHi.offset (v.extractLsb' 32 32)]

/-- `WRWORDS w0, ...` (R96): absent words are 0. -/
def wrWords (ws : List Word16) : List HostOp :=
  [.wr Reg.w01.offset (ws.getD 1 0 ++ ws.getD 0 0), .wr Reg.w23.offset (ws.getD 3 0 ++ ws.getD 2 0),
    .wr Reg.wcnt.offset (BitVec.ofNat 32 ws.length)]

end Sys2Proof.Machine
end

