-- ==== Sys2Proof/Machine/Step.lean ====
section
/-! DEFINITION. One step of the machine: the engine's where it is ready, else the host's (R6, R226). -/

namespace Sys2Proof.Machine

/-- One step. The engine decodes the latched word at completion (R88, R226); an illegal word completes with ILLEGAL_CMD
(R89); otherwise the command's meaning ends it. -/
def step (s : State) : Host.Outcome State Fault Refusal :=
  if engineReady s then
    match decode s.cmdlatch with
    | .ok i => exec i s
    | .error _ => completeIllegal s
  else hostStep s

/-- `s` with the word latched and the engine ready, as a write of it to CMD leaves the block when its LATENCY has passed
(R226, log 2): there is no program memory and no program counter (R40). A command is one 32-bit word (R80). -/
def State.withFetchWord (s : State) (nbits w : Nat) : State := withCommand s (BitVec.ofNat 32 (w % 2 ^ nbits))

end Sys2Proof.Machine
end

