-- ==== Sys2Proof/Safety.lean ====
section
/-! DEFINITION. What counts as a safe run, and the terms the statements use. -/

namespace Sys2Proof.Machine

/-- Every listed byte is a byte of PBUF or of FBUF (R61, R66). -/
def inBuffers (m : List Host.Cell) : Bool := m.all fun c => Buffer.pbuf.holds c.1 || Buffer.fbuf.holds c.1

/-- The invariant of the block: memory in canonical form and inside the two buffers (R66); ERRCODE is 0 while a command
is in progress (R24); LATENCY runs only while one is (R38). -/
def Inv (s : State) : Prop :=
  Memory.wf s.mem = true ∧ inBuffers s.mem = true ∧ (s.busy = true → s.errcode = .ok) ∧ (s.busy = false → s.wait = 0)

/-- The host program has executed its last operation and BUSY = 0 (R261). -/
def Finished (s : State) : Prop := s.host = [] ∧ s.busy = false

/-- A step that meets no model fault (R225). -/
def SafeStep (s : State) : Prop := ∃ t, step s = .next t

/-- Commands completed one after another, each on the state the one before it left (R226). -/
def execAll : List Instr → State → Host.Outcome State Fault Refusal
  | [], s => .next s
  | i :: is, s =>
    match exec i s with
    | .next t => execAll is t
    | .fault f => .fault f
    | .refused r => .refused r

/-- Byte `i` of a buffer: none where it is unwritten (R35, R36, R39). -/
def byteOf (s : State) (b : Buffer) (i : Nat) : Option Byte := Memory.read s.mem (b.addr i)

/-- `B[0..len(v)) = v` (R9). -/
def Starts (s : State) (b : Buffer) (v : List Byte) : Prop := ∀ j, j < v.length → byteOf s b j = some (byteAt v j)

/-- `p` is the current PDU, PBUF[0..PLEN), all of it written (R35). -/
def IsPdu (s : State) (p : List Byte) : Prop := p.length = s.plen.toNat ∧ Starts s .pbuf p

/-- `f` is the current frame, FBUF[0..FLEN), all of it written (R36). -/
def IsFrame (s : State) (f : List Byte) : Prop := f.length = s.flen.toNat ∧ Starts s .fbuf f

/-- What `check_tx` asks for (R132): a PDU of 1 to 253 bytes, all written, and a unit id of 0 to 247. -/
def CanSend (s : State) (p : List Byte) : Prop :=
  IsPdu s p ∧ 1 ≤ s.plen.toNat ∧ s.plen.toNat ≤ 253 ∧ s.unit.toNat ≤ 247

/-- Every byte of memory but B[0..n) reads in `t` as it did in `s`. -/
def SameOutside (s t : State) (b : Buffer) (n : Nat) : Prop :=
  ∀ a, ¬(b.addr 0 ≤ a ∧ a < b.addr n) → Memory.read t.mem a = Memory.read s.mem a

/-- `i` ends with a result code and no other effect (R224, R226). -/
def EndsWith (i : Instr) (s : State) (c : ErrCode) : Prop :=
  exec i s = .next { s with errcode := c, busy := false }

/-- A frame command and then a deframe command succeed and give UNIT, PLEN and PBUF[0..PLEN) back (R160). -/
def RoundTrips (tx rx : Instr) : Prop :=
  ∀ s p, CanSend s p → ∃ t u, exec tx s = .next t ∧ t.errcode = .ok ∧ exec rx t = .next u ∧ u.errcode = .ok ∧
    u.unit = s.unit ∧ u.plen = s.plen ∧ ∀ j, j < s.plen.toNat → byteOf u .pbuf j = byteOf s .pbuf j

/-- Byte `j` of the value bytes of VAL for a type of `n` bytes (R181). -/
def valByte (n : Nat) (v : BitVec 64) (j : Nat) : Byte := v.extractLsb' (8 * (n - 1 - j)) 8

/-- The places in V of word `i`'s high and low byte, as R182's table gives them for `k` words, n = 2k. -/
def wordPlaces (o : ByteOrder) (k i : Nat) : Nat × Nat :=
  match o with
  | .be => (2 * i, 2 * i + 1)
  | .le => (2 * k - 1 - 2 * i, 2 * k - 2 - 2 * i)
  | .bews => (2 * (k - 1 - i), 2 * (k - 1 - i) + 1)
  | .lews => (2 * i + 1, 2 * i)

/-- VAL holds the integer `x` extended as its type asks (R180): by its sign bit for I16 and I32, by zeros else. -/
def Extends (t : ValType) (x : Nat) (v : BitVec 64) : Prop :=
  match t with
  | .i16 => v.toInt = (BitVec.ofNat 16 x).toInt
  | .i32 => v.toInt = (BitVec.ofNat 32 x).toInt
  | .u16 | .u32 | .f32 | .f64 | .bool => v.toNat = x

/-- The codes a command can end with besides OK (R222). -/
def codesOf : Instr → List ErrCode
  | .crcInit | .crcUpd _ | .lrcInit | .lrcUpd _ | .rxRst | .srst => []
  | .frmTcp _ | .frmRtu | .frmAsc => [.valPduLen, .valUnit]
  | .dfrTcp true => [.frmLength, .frmHeader, .trnTid]
  | .dfrTcp false => [.frmLength, .frmHeader]
  | .dfrRtu => [.frmLength, .frmChecksum, .frmHeader]
  | .dfrAsc => [.frmLength, .frmHeader, .frmTerminator, .frmHex, .frmChecksum]
  | .rxApp _ => [.bufOverflow]
  | .valPack _ _ => [.codType]
  | .valUnpack .bool _ => [.codWcnt, .codType]
  | .valUnpack _ _ => [.codWcnt]

/-- The buffer a command reads (R130): none for a command that reads no buffer. -/
def readsBuffer : Instr → Option Buffer
  | .frmTcp _ | .frmRtu | .frmAsc => some .pbuf
  | .dfrTcp _ | .dfrRtu | .dfrAsc => some .fbuf
  | .crcInit | .crcUpd _ | .lrcInit | .lrcUpd _ | .rxRst | .rxApp _ | .valPack _ _ | .valUnpack _ _ | .srst => none

/-- The registers a command may write (R26 to R34). -/
def mayWrite : Instr → List Reg
  | .crcInit | .crcUpd _ => [.crc]
  | .lrcInit | .lrcUpd _ => [.lrc]
  | .frmTcp true => [.tid, .flen]
  | .frmTcp false => [.flen]
  | .frmRtu => [.crc, .flen]
  | .frmAsc => [.lrc, .flen]
  | .dfrTcp _ => [.tid, .unit, .plen]
  | .dfrRtu => [.crc, .unit, .plen]
  | .dfrAsc => [.lrc, .unit, .plen]
  | .rxRst | .rxApp _ => [.crc, .flen]
  | .valPack _ _ => [.w01, .w23, .wcnt]
  | .valUnpack _ _ => [.valLo, .valHi]
  | .srst => [.crc, .lrc, .unit, .tid, .plen, .flen, .valLo, .valHi, .w01, .w23, .wcnt]

end Sys2Proof.Machine
end

