-- ==== Sys2Proof/Certificates/Slice0/Obligations.lean ====
section
/-! DEFINITION. What is stated about the model, for the provers: one `def Obligations.<Name> : Prop` each. -/

open Sys2Proof Sys2Proof.Machine

/-! Encoding (30_encoding.md). -/

/-- R87, R88, R95: decoding the word of a command gives the command, with every operand it had. -/
def Obligations.DecodeOfEncodeIsTheCommand : Prop := ∀ i : Instr, decode (encode i) = .ok i

/-- R88, R95: a word that decodes is the word of the command it decodes to, so no command has two words. -/
def Obligations.EncodeOfDecodeIsTheWord : Prop := ∀ (c : Word32) (i : Instr), decode c = .ok i → encode i = c

/-- R82, R89: a word with an unassigned OP, a nonzero reserved bit or unused field, or TYPE = 7, and no other, is
illegal; its completion sets ERRCODE to ILLEGAL_CMD and BUSY to 0 and changes nothing else. -/
def Obligations.IllegalWordsReportAndChangeNothing : Prop :=
  (∀ c : Word32, (∃ e, decode c = .error e) ↔ (fieldsOf c).wellFormed = false) ∧
    ∀ s : State, s.busy = true → s.wait = 0 → (fieldsOf s.cmdlatch).wellFormed = false →
      step s = .next { s with errcode := .illegalCmd, busy := false }

/-- R88: at most one row matches a word. -/
def Obligations.AtMostOneRowHitsAWord : Prop := ∀ c : Word32, (rows.filter fun r => r.hits c).length ≤ 1

/-- R92: the representative words decode as listed (and those marked illegal do not decode). -/
def Obligations.RepresentativeWordsDecode : Prop :=
  decode 0x00000A02 = .ok (.crcUpd 0x0A) ∧ decode 0x0000F204 = .ok (.lrcUpd 0xF2) ∧
    decode 0x0000C521 = .ok (.rxApp 0xC5) ∧ decode 0x01000010 = .ok (.frmTcp true) ∧
    decode 0x01000018 = .ok (.dfrTcp true) ∧ decode 0x00220030 = .ok (.valPack .u32 .bews) ∧
    decode 0x00150031 = .ok (.valUnpack .f64 .le) ∧ decode 0x00060030 = .ok (.valPack .bool .be) ∧
    decode 0x00070030 = .error .reservedType ∧ decode 0x00000101 = .error .nonzeroField ∧
    decode 0x01000011 = .error .nonzeroField

/-! The step, reset and the invariant (60_exceptions.md, 70_reset_and_hazards.md). -/

/-- R226: when the engine is ready (BUSY = 1 and no LATENCY is left, log 1), a step is the completion of the latched
command: of the command it decodes to, whose `exec` includes ERRCODE and BUSY <- 0; the host does nothing in that step.
The word `withFetchWord` places is the one the next step runs. -/
def Obligations.StepRunsTheDecodedCommand : Prop :=
  (∀ (s : State) (i : Instr), s.busy = true → s.wait = 0 → decode s.cmdlatch = .ok i → step s = exec i s) ∧
    ∀ (s : State) (w : Nat) (i : Instr), decode (BitVec.ofNat 32 w) = .ok i →
      step (s.withFetchWord 32 w) = exec i (s.withFetchWord 32 w)

/-- R42: the reset value of every piece of state, as the host and the engine see it; SRST gives the same values
and leaves the buffers as they are. That SRST resets CMDLATCH too is R42's word, which R210's list leaves out (log 14). -/
def Obligations.ResetValues : Prop :=
  (State.reset.busy = false ∧ State.reset.errcode = .ok ∧ errFlag State.reset = false ∧ rxok State.reset = false ∧
      State.reset.cmdlatch = 0x00000000 ∧ State.reset.crc = 0xFFFF ∧ State.reset.sum = 0x00 ∧
      lrcWord State.reset = 0x00000000 ∧ State.reset.unit = 0x00 ∧ State.reset.tid = 0x0000 ∧ State.reset.plen = 0 ∧
      State.reset.flen = 0 ∧ State.reset.val = 0x0000000000000000 ∧ words State.reset = [0, 0, 0, 0] ∧
      State.reset.wcnt = 0 ∧ (∀ b i, byteOf State.reset b i = none)) ∧
    ∀ s : State, ∃ t, exec .srst s = .next t ∧ (∀ r, readReg t r = readReg State.reset r) ∧
      t.cmdlatch = State.reset.cmdlatch ∧ t.mem = s.mem

/-- R251: power-on reset, at any time the engine is not in its completing step, gives State.reset whatever the block held,
and a command in progress is abandoned. The host's remaining operations, what it has read and the latencies go on (the
model's choice, log 9), and no LATENCY is left (log 1). -/
def Obligations.PowerOnResetGivesResetState : Prop :=
  ∀ (s : State) (rest : List HostOp), s.host = .powerOnReset :: rest → (s.busy = true → 0 < s.wait) →
    step s = .next { State.reset with host := rest, reads := s.reads, latencies := s.latencies, issued := s.issued }

/-- R237, R252: idle and with nothing for the host to do, the block keeps all its state. -/
def Obligations.IdleBlockKeepsItsState : Prop :=
  ∀ s : State, s.busy = false → s.wait = 0 → s.host = [] → step s = .next s

/-- The invariant holds after reset. Its clause on LATENCY holds there by the model's own reset value of `wait` (log 1), and
the canonical form is the model's (log 5). -/
def Obligations.ResetMeetsTheInvariant : Prop := Inv State.reset

/-- R24, R66: every step keeps memory in canonical form (log 5) and inside PBUF and FBUF, ERRCODE at 0 while a command is
in progress, and no LATENCY pending while none is (log 1). -/
def Obligations.EveryStepKeepsTheInvariant : Prop := ∀ s t : State, Inv s → step s = .next t → Inv t

/-! Checksums (40_checksum.md). -/

/-- R110 to R113: the accumulator commands complete on every state, write their accumulator and nothing else; after
CRC.INIT RXOK reads 0, after LRC.INIT the LRC register reads 0. The words are those of R87. -/
def Obligations.AccumulatorCommandsComplete : Prop :=
  ∀ (s : State) (b : Byte),
    exec .crcInit s = .next { s with crc := 0xFFFF, errcode := .ok, busy := false } ∧
      exec (.crcUpd b) s = .next { s with crc := crcByte s.crc b, errcode := .ok, busy := false } ∧
      exec .lrcInit s = .next { s with sum := 0, errcode := .ok, busy := false } ∧
      exec (.lrcUpd b) s =
        .next { s with sum := BitVec.ofNat 8 ((s.sum.toNat + b.toNat) % 256), errcode := .ok, busy := false } ∧
      rxok { s with crc := 0xFFFF } = false ∧ lrcWord { s with sum := 0 } = 0 ∧ decode 0x00000001 = .ok .crcInit ∧
      decode 0x00000003 = .ok .lrcInit ∧ decode (0x00000002 ||| (b.setWidth 32 <<< 8)) = .ok (.crcUpd b) ∧
      decode (0x00000004 ||| (b.setWidth 32 <<< 8)) = .ok (.lrcUpd b)

/-- R100: one CRC step is eight right shifts of the register, 0xA001 added after each shift that drops a 1, from the
register with the byte added to its low half; a zero byte into a zero register leaves zero (R111). -/
def Obligations.CrcStepShiftsEightTimes : Prop :=
  (∀ (c : Word16) (b : Byte), ∃ x : Nat → Word16, x 0 = c ^^^ b.setWidth 16 ∧ crcByte c b = x 8 ∧
      ∀ k, k < 8 → x (k + 1) = if (x k).getLsbD 0 = true then (x k >>> 1) ^^^ 0xA001#16 else x k >>> 1) ∧
    crcByte 0x0000 0x00 = 0x0000 ∧ crcByte 0xFFFF 0x01 = 0x807E

/-- R101, R111: CRC.INIT and then CRC.UPD of each byte of a sequence leaves the CRC of the sequence, and changes nothing
else. -/
def Obligations.CrcUpdSequenceComputesCrc : Prop :=
  ∀ (s : State) (bs : List Byte), execAll (.crcInit :: bs.map .crcUpd) s =
    .next { s with crc := crc16 bs, errcode := .ok, busy := false }

/-- R104, R113: LRC.INIT and then LRC.UPD of each byte of a sequence leaves the byte sum of the sequence modulo 256 in
SUM, its two's complement in the LRC field, and changes nothing else. -/
def Obligations.LrcUpdSequenceComputesLrc : Prop :=
  ∀ (s : State) (bs : List Byte), ∃ t, execAll (.lrcInit :: bs.map .lrcUpd) s = .next t ∧
    t = { s with sum := t.sum, errcode := .ok, busy := false } ∧ t.sum.toNat = (bs.map BitVec.toNat).sum % 256 ∧
    (lrcWord t).toNat = t.sum.toNat + 256 * ((256 - t.sum.toNat) % 256) ∧
    ((lrcWord t).extractLsb' 8 8 : Byte) = lrc bs

/-- R103: the two CRC bytes after a sequence, low byte first, give the residue zero. -/
def Obligations.CrcResidueIsZero : Prop :=
  ∀ s : List Byte, crc16 (s ++ [lo8 (crc16 s), hi8 (crc16 s)]) = 0x0000

/-- R106: a sequence and its LRC byte sum to 0 modulo 256, and no other last byte does. -/
def Obligations.LrcByteIsTheOneThatSumsToZero : Prop :=
  ∀ (s : List Byte) (x : Byte), lrcSum (s ++ [x]) = 0 ↔ x = lrc s

/-- R155: sequences that differ in a single byte have different CRCs. -/
def Obligations.CrcDetectsEverySingleByteError : Prop :=
  ∀ (p q : List Byte) (a b : Byte), a ≠ b → crc16 (p ++ a :: q) ≠ crc16 (p ++ b :: q)

/-! Frame commands (41_frame.md). -/

/-- R134, R135, R136: FRM.TCP builds the MBAP frame, with TID incremented first (and kept) for .INC, stores it in
FBUF[0..PLEN + 7), and changes nothing else. -/
def Obligations.FrmTcpBuildsTheMbapFrame : Prop :=
  ∀ (inc : Bool) (s : State) (p : List Byte), CanSend s p →
    ∃ t, exec (.frmTcp inc) s = .next t ∧
      t = { s with mem := t.mem, flen := t.flen, tid := t.tid, errcode := .ok, busy := false } ∧
      t.tid.toNat = (if inc then (s.tid.toNat + 1) % 65536 else s.tid.toNat) ∧ t.flen.toNat = s.plen.toNat + 7 ∧
      byteOf t .fbuf 0 = some (hi8 t.tid) ∧ byteOf t .fbuf 1 = some (lo8 t.tid) ∧
      byteOf t .fbuf 2 = some 0x00 ∧ byteOf t .fbuf 3 = some 0x00 ∧
      byteOf t .fbuf 4 = some 0x00 ∧ byteOf t .fbuf 5 = some (BitVec.ofNat 8 (s.plen.toNat + 1)) ∧
      byteOf t .fbuf 6 = some s.unit ∧ (∀ j, j < s.plen.toNat → byteOf t .fbuf (7 + j) = byteOf s .pbuf j) ∧
      SameOutside s t .fbuf (s.plen.toNat + 7)

/-- R138, R139, R102: FRM.RTU builds unit id, PDU and CRC, low byte first, in FBUF[0..PLEN + 3), leaves the frame's CRC
in CRC, and changes nothing else. -/
def Obligations.FrmRtuBuildsTheRtuFrame : Prop :=
  ∀ (s : State) (p : List Byte), CanSend s p →
    ∃ t, exec .frmRtu s = .next t ∧
      t = { s with mem := t.mem, flen := t.flen, crc := crc16 (s.unit :: p), errcode := .ok, busy := false } ∧
      t.flen.toNat = s.plen.toNat + 3 ∧ byteOf t .fbuf 0 = some s.unit ∧
      (∀ j, j < s.plen.toNat → byteOf t .fbuf (1 + j) = byteOf s .pbuf j) ∧
      byteOf t .fbuf (s.plen.toNat + 1) = some (lo8 (crc16 (s.unit :: p))) ∧
      byteOf t .fbuf (s.plen.toNat + 2) = some (hi8 (crc16 (s.unit :: p))) ∧
      SameOutside s t .fbuf (s.plen.toNat + 3)

/-- R142, R144, R105: FRM.ASC builds ':', the hex of unit id, PDU and LRC, CR and LF in FBUF[0..2 PLEN + 7), leaves the
byte sum of unit id and PDU in SUM, and changes nothing else. -/
def Obligations.FrmAscBuildsTheAsciiFrame : Prop :=
  ∀ (s : State) (p : List Byte), CanSend s p →
    ∃ t, exec .frmAsc s = .next t ∧
      t = { s with mem := t.mem, flen := t.flen, sum := lrcSum (s.unit :: p), errcode := .ok, busy := false } ∧
      t.flen.toNat = 2 * s.plen.toNat + 7 ∧ byteOf t .fbuf 0 = some 0x3A ∧
      (∀ j, j < s.plen.toNat + 2 →
        let d := byteAt (s.unit :: p ++ [lrc (s.unit :: p)]) j
        byteOf t .fbuf (1 + 2 * j) = some (hexChar (d.extractLsb' 4 4)) ∧
          byteOf t .fbuf (2 + 2 * j) = some (hexChar (d.extractLsb' 0 4))) ∧
      byteOf t .fbuf (2 * s.plen.toNat + 5) = some 0x0D ∧ byteOf t .fbuf (2 * s.plen.toNat + 6) = some 0x0A ∧
      SameOutside s t .fbuf (2 * s.plen.toNat + 7)

/-- R132, R229: every frame command checks PLEN first, then UNIT, and then reads the PDU from its first byte up; the
first unwritten byte of it is a model fault. -/
def Obligations.FrameCommandsCheckLengthThenUnit : Prop :=
  ∀ (i : Instr) (s : State), i = .frmTcp false ∨ i = .frmTcp true ∨ i = .frmRtu ∨ i = .frmAsc →
    if s.plen.toNat = 0 ∨ 253 < s.plen.toNat then EndsWith i s .valPduLen
    else if 248 ≤ s.unit.toNat then EndsWith i s .valUnit
    else ∀ j, j < s.plen.toNat → byteOf s .pbuf j = none → (∀ k, k < j → byteOf s .pbuf k ≠ none) →
      exec i s = .fault (.unwrittenRead .pbuf j)

/-- R143, R158: hex characters are '0' to '9' and 'A' to 'F' in ASCII, a byte's high nibble comes first, and decoding
knows these sixteen characters and no other. -/
def Obligations.HexCharactersAreUppercaseAscii : Prop :=
  (∀ n : BitVec 4, (hexChar n).toNat = if n.toNat ≤ 9 then 0x30 + n.toNat else 0x41 + (n.toNat - 10)) ∧
    (∀ b : Byte, hexEncode [b] = [hexChar (b.extractLsb' 4 4), hexChar (b.extractLsb' 0 4)]) ∧
    ∀ ch : Byte, (hexVal ch).map BitVec.toNat =
      if 0x30 ≤ ch.toNat ∧ ch.toNat ≤ 0x39 then some (ch.toNat - 0x30)
      else if 0x41 ≤ ch.toNat ∧ ch.toNat ≤ 0x46 then some (ch.toNat - 0x37)
      else none

/-! Deframe commands (41_frame.md). -/

/-- R151: DFR.TCP accepts a frame of 8 to 260 bytes whose protocol id is 0, whose length field is FLEN - 6, whose unit id
is at most 247 and, with .CHK, whose transaction id is TID; it loads TID, UNIT, PLEN and PBUF[0..PLEN) from it and changes
nothing else. -/
def Obligations.DfrTcpAcceptsAValidFrame : Prop :=
  ∀ (chk : Bool) (s : State) (f : List Byte), IsFrame s f → 8 ≤ f.length → f.length ≤ 260 →
    byteAt f 2 = 0 → byteAt f 3 = 0 → 256 * (byteAt f 4).toNat + (byteAt f 5).toNat = f.length - 6 →
    (byteAt f 6).toNat ≤ 247 → (chk = true → be16 (byteAt f 0) (byteAt f 1) = s.tid) →
    ∃ t, exec (.dfrTcp chk) s = .next t ∧
      t = { s with mem := t.mem, tid := be16 (byteAt f 0) (byteAt f 1), unit := byteAt f 6, plen := t.plen,
                   errcode := .ok, busy := false } ∧
      t.plen.toNat = f.length - 7 ∧ (∀ j, j < f.length - 7 → byteOf t .pbuf j = some (byteAt f (7 + j))) ∧
      SameOutside s t .pbuf (f.length - 7)

/-- R155: DFR.RTU accepts a frame of 4 to 256 bytes whose last two bytes are, low byte first, the CRC of the bytes before
them and whose unit id is at most 247; it loads CRC, UNIT, PLEN and PBUF[0..PLEN) and changes nothing else. -/
def Obligations.DfrRtuAcceptsAValidFrame : Prop :=
  ∀ (s : State) (f : List Byte), IsFrame s f → 4 ≤ f.length → f.length ≤ 256 →
    lo8 (crc16 (f.take (f.length - 2))) = byteAt f (f.length - 2) →
    hi8 (crc16 (f.take (f.length - 2))) = byteAt f (f.length - 1) → (byteAt f 0).toNat ≤ 247 →
    ∃ t, exec .dfrRtu s = .next t ∧
      t = { s with mem := t.mem, crc := crc16 (f.take (f.length - 2)), unit := byteAt f 0, plen := t.plen,
                   errcode := .ok, busy := false } ∧
      t.plen.toNat = f.length - 3 ∧ (∀ j, j < f.length - 3 → byteOf t .pbuf j = some (byteAt f (1 + j))) ∧
      SameOutside s t .pbuf (f.length - 3)

/-- R159: DFR.ASC accepts ':', the hex of m = 3 to 255 bytes d that sum to 0 modulo 256 and begin with a unit id of at
most 247, CR and LF; it loads SUM (of all but the LRC byte), UNIT, PLEN and PBUF[0..PLEN) and changes nothing else. -/
def Obligations.DfrAscAcceptsAValidFrame : Prop :=
  ∀ (s : State) (f d : List Byte), IsFrame s f → 3 ≤ d.length → d.length ≤ 255 → f.length = 2 * d.length + 3 →
    byteAt f 0 = 0x3A → byteAt f (f.length - 2) = 0x0D → byteAt f (f.length - 1) = 0x0A →
    (∀ j, j < d.length → hexVal (byteAt f (1 + 2 * j)) = some ((byteAt d j).extractLsb' 4 4) ∧
      hexVal (byteAt f (2 + 2 * j)) = some ((byteAt d j).extractLsb' 0 4)) →
    lrcSum d = 0 → (byteAt d 0).toNat ≤ 247 →
    ∃ t, exec .dfrAsc s = .next t ∧
      t = { s with mem := t.mem, sum := lrcSum (d.take (d.length - 1)), unit := byteAt d 0, plen := t.plen,
                   errcode := .ok, busy := false } ∧
      t.plen.toNat = d.length - 2 ∧ (∀ j, j < d.length - 2 → byteOf t .pbuf j = some (byteAt d (1 + j))) ∧
      SameOutside s t .pbuf (d.length - 2)

/-- R151, R152, R229: DFR.TCP's failures, in the order of its checks. -/
def Obligations.DfrTcpRefusesInOrder : Prop :=
  ∀ (chk : Bool) (s : State),
    (s.flen.toNat < 8 ∨ 260 < s.flen.toNat → EndsWith (.dfrTcp chk) s .frmLength) ∧
      ∀ f, IsFrame s f → 8 ≤ f.length → f.length ≤ 260 →
        if byteAt f 2 ≠ 0 ∨ byteAt f 3 ≠ 0 then EndsWith (.dfrTcp chk) s .frmHeader
        else if 256 * (byteAt f 4).toNat + (byteAt f 5).toNat ≠ f.length - 6 then EndsWith (.dfrTcp chk) s .frmHeader
        else if 248 ≤ (byteAt f 6).toNat then EndsWith (.dfrTcp chk) s .frmHeader
        else chk = true → be16 (byteAt f 0) (byteAt f 1) ≠ s.tid → EndsWith (.dfrTcp chk) s .trnTid

/-- R155, R229: DFR.RTU's failures, in the order of its checks. -/
def Obligations.DfrRtuRefusesInOrder : Prop :=
  ∀ s : State,
    (s.flen.toNat < 4 ∨ 256 < s.flen.toNat → EndsWith .dfrRtu s .frmLength) ∧
      ∀ f, IsFrame s f → 4 ≤ f.length → f.length ≤ 256 →
        if lo8 (crc16 (f.take (f.length - 2))) ≠ byteAt f (f.length - 2) ∨
            hi8 (crc16 (f.take (f.length - 2))) ≠ byteAt f (f.length - 1) then EndsWith .dfrRtu s .frmChecksum
        else 248 ≤ (byteAt f 0).toNat → EndsWith .dfrRtu s .frmHeader

/-- R159, R229: DFR.ASC's failures, in the order of its checks. -/
def Obligations.DfrAscRefusesInOrder : Prop :=
  ∀ s : State,
    (s.flen.toNat < 9 ∨ 513 < s.flen.toNat → EndsWith .dfrAsc s .frmLength) ∧
      ∀ f, IsFrame s f → 9 ≤ f.length → f.length ≤ 513 →
        if byteAt f 0 ≠ 0x3A then EndsWith .dfrAsc s .frmHeader
        else if byteAt f (f.length - 2) ≠ 0x0D ∨ byteAt f (f.length - 1) ≠ 0x0A then EndsWith .dfrAsc s .frmTerminator
        else if (f.length - 3) % 2 = 1 then EndsWith .dfrAsc s .frmHex
        else
          ((∃ j, 1 ≤ j ∧ j ≤ f.length - 3 ∧ hexVal (byteAt f j) = none) → EndsWith .dfrAsc s .frmHex) ∧
            ∀ d : List Byte, f.length = 2 * d.length + 3 →
              (∀ j, j < d.length → hexVal (byteAt f (1 + 2 * j)) = some ((byteAt d j).extractLsb' 4 4) ∧
                hexVal (byteAt f (2 + 2 * j)) = some ((byteAt d j).extractLsb' 0 4)) →
              if lrcSum d ≠ 0 then EndsWith .dfrAsc s .frmChecksum
              else 248 ≤ (byteAt d 0).toNat → EndsWith .dfrAsc s .frmHeader

/-- R66, R150, R229: once FLEN is within its bounds, a deframe command reads its whole frame before any other check; the
first unwritten byte of it is a model fault. -/
def Obligations.DeframeReadsTheWholeFrameFirst : Prop :=
  ∀ (s : State) (j : Nat), j < s.flen.toNat → byteOf s .fbuf j = none → (∀ k, k < j → byteOf s .fbuf k ≠ none) →
    (8 ≤ s.flen.toNat → s.flen.toNat ≤ 260 → ∀ chk, exec (.dfrTcp chk) s = .fault (.unwrittenRead .fbuf j)) ∧
      (4 ≤ s.flen.toNat → s.flen.toNat ≤ 256 → exec .dfrRtu s = .fault (.unwrittenRead .fbuf j)) ∧
      (9 ≤ s.flen.toNat → s.flen.toNat ≤ 513 → exec .dfrAsc s = .fault (.unwrittenRead .fbuf j))

/-- R160: for every unit id of 0 to 247 and every written PDU of 1 to 253 bytes, framing and then deframing by the same
transport (with .CHK after .INC) succeeds and gives UNIT, PLEN and PBUF[0..PLEN) back. -/
def Obligations.FramingThenDeframingRoundTrips : Prop :=
  (∀ inc, RoundTrips (.frmTcp inc) (.dfrTcp inc)) ∧ RoundTrips .frmRtu .dfrRtu ∧ RoundTrips .frmAsc .dfrAsc

/-- R155: from a frame DFR.RTU accepts, changing any single byte, of the CRC bytes too, makes DFR.RTU fail with
FRM_CHECKSUM. -/
def Obligations.DfrRtuRefusesASingleCorruptedByte : Prop :=
  ∀ (s t : State) (f : List Byte) (j : Nat) (x : Byte), IsFrame s f → exec .dfrRtu s = .next t → t.errcode = .ok →
    j < f.length → x ≠ byteAt f j → EndsWith .dfrRtu (bufWrites s .fbuf j [x]) .frmChecksum

/-! Receive accumulator (42_receive.md) and SRST (44_control.md). -/

/-- R170, R210: RX.RST and SRST complete on every state; RX.RST writes FLEN and CRC and leaves FBUF, and RXOK then reads 0;
SRST gives every register and CMDLATCH (log 14) its reset value and leaves the buffers. The words are those of R87. -/
def Obligations.ResetCommandsComplete : Prop :=
  ∀ s : State, exec .rxRst s = .next { s with flen := 0, crc := 0xFFFF, errcode := .ok, busy := false } ∧
    rxok { s with flen := 0, crc := 0xFFFF } = false ∧ decode 0x00000020 = .ok .rxRst ∧
    exec .srst s =
      .next { State.reset with
        mem := s.mem, host := s.host, reads := s.reads, wait := s.wait, latencies := s.latencies,
        issued := s.issued } ∧
    decode 0x000000FF = .ok .srst

/-- R171: with FLEN below 513 RX.APP stores its byte at FBUF[FLEN], counts it and feeds it to the CRC, and changes nothing
else. -/
def Obligations.RxAppAppendsOneByte : Prop :=
  ∀ (s : State) (b : Byte), s.flen.toNat < 513 →
    ∃ t, exec (.rxApp b) s = .next t ∧
      t = { s with mem := t.mem, flen := t.flen, crc := crcByte s.crc b, errcode := .ok, busy := false } ∧
      t.flen.toNat = s.flen.toNat + 1 ∧ byteOf t .fbuf s.flen.toNat = some b ∧
      ∀ a, a ≠ Buffer.fbuf.addr s.flen.toNat → Memory.read t.mem a = Memory.read s.mem a

/-- R171: with FLEN at 513 or above, RX.APP ends with BUF_OVERFLOW and drops the byte. -/
def Obligations.RxAppOverflowsAt513 : Prop :=
  ∀ (s : State) (b : Byte), 513 ≤ s.flen.toNat → EndsWith (.rxApp b) s .bufOverflow

/-- R170, R171, R172: RX.RST and then RX.APP of each of at most 513 bytes leaves the bytes in FBUF[0..FLEN) and their CRC in
CRC; RXOK then reads 1 exactly when there are at least 4 and the last two are, low byte first, the CRC of the others. -/
def Obligations.ReceptionRaisesRxokOnAValidCrc : Prop :=
  ∀ (s : State) (bs : List Byte), bs.length ≤ 513 →
    ∃ t, execAll (.rxRst :: bs.map .rxApp) s = .next t ∧
      t = { s with mem := t.mem, flen := t.flen, crc := crc16 bs, errcode := .ok, busy := false } ∧
      IsFrame t bs ∧ SameOutside s t .fbuf bs.length ∧
      (rxok t = true ↔ 4 ≤ bs.length ∧
        crc16 (bs.take (bs.length - 2)) = be16 (byteAt bs (bs.length - 1)) (byteAt bs (bs.length - 2)))

/-! Byte-order codec (43_byteorder.md). -/

/-- R180: the canonical forms of VAL, type by type. -/
def Obligations.CanonicalFormsOfVal : Prop :=
  ∀ v : BitVec 64,
    (canonical .u16 v = true ↔ v.toNat < 2 ^ 16) ∧ (canonical .u32 v = true ↔ v.toNat < 2 ^ 32) ∧
      (canonical .f32 v = true ↔ v.toNat < 2 ^ 32) ∧
      (canonical .i16 v = true ↔ -(2 ^ 15) ≤ v.toInt ∧ v.toInt < 2 ^ 15) ∧
      (canonical .i32 v = true ↔ -(2 ^ 31) ≤ v.toInt ∧ v.toInt < 2 ^ 31) ∧
      canonical .f64 v = true ∧ (canonical .bool v = true ↔ v = 0 ∨ v = 1)

/-- R190, R182: VAL.PACK of a canonical VAL of a type other than BOOL writes word i from the two value bytes the order's
row of R182 names, for i below the type's width, sets WCNT to the width, and changes nothing else, the other words
included. -/
def Obligations.ValPackWritesTheWords : Prop :=
  ∀ (t : ValType) (o : ByteOrder) (s : State), t ≠ .bool → canonical t s.val = true →
    ∃ u, exec (.valPack t o) s = .next u ∧
      u = { s with w0 := u.w0, w1 := u.w1, w2 := u.w2, w3 := u.w3, wcnt := u.wcnt, errcode := .ok, busy := false } ∧
      u.wcnt.toNat = valWidth t ∧
      ∀ i, i < 4 → (words u)[i]? =
        if i < valWidth t then
          some (be16 (valByte (2 * valWidth t) s.val (wordPlaces o (valWidth t) i).1)
            (valByte (2 * valWidth t) s.val (wordPlaces o (valWidth t) i).2))
        else (words s)[i]?

/-- R186: BOOL is one word, whatever the order. VAL.PACK writes 0x0000 for VAL = 0 and 0x0001 for VAL = 1 into W0, and 1 into
WCNT; VAL.UNPACK (of one word) gives VAL the word 0 or 1 and ends with COD_TYPE for any other. -/
def Obligations.BoolIsOneWordWhateverTheOrder : Prop :=
  ∀ (o : ByteOrder) (s : State),
    (s.val = 0 → exec (.valPack .bool o) s = .next { s with w0 := 0x0000, wcnt := 1, errcode := .ok, busy := false }) ∧
    (s.val = 1 → exec (.valPack .bool o) s = .next { s with w0 := 0x0001, wcnt := 1, errcode := .ok, busy := false }) ∧
    (s.wcnt = 1 →
      if s.w0 = 0x0000 then exec (.valUnpack .bool o) s = .next { s with val := 0, errcode := .ok, busy := false }
      else if s.w0 = 0x0001 then exec (.valUnpack .bool o) s = .next { s with val := 1, errcode := .ok, busy := false }
      else EndsWith (.valUnpack .bool o) s .codType)

/-- R190, R191, R229: VAL.PACK of a VAL not canonical for its type ends with COD_TYPE; VAL.UNPACK with WCNT other than the
type's width ends with COD_WCNT, whatever the words hold. -/
def Obligations.CodecRefusesValuesAndCounts : Prop :=
  ∀ (t : ValType) (o : ByteOrder) (s : State),
    (canonical t s.val = false → EndsWith (.valPack t o) s .codType) ∧
      (s.wcnt.toNat ≠ valWidth t → EndsWith (.valUnpack t o) s .codWcnt)

/-- R191, R183: with WCNT the width of a type other than BOOL, VAL.UNPACK puts each word's two bytes at the places of the
order's row, reads the bytes as one number, most significant byte first, extends it as the type asks, and changes only
VAL. -/
def Obligations.ValUnpackReadsTheWords : Prop :=
  ∀ (t : ValType) (o : ByteOrder) (s : State), t ≠ .bool → s.wcnt.toNat = valWidth t →
    ∃ (u : State) (v : List Byte), exec (.valUnpack t o) s = .next u ∧
      u = { s with val := u.val, errcode := .ok, busy := false } ∧ v.length = 2 * valWidth t ∧
      (∀ i, i < valWidth t → byteAt v (wordPlaces o (valWidth t) i).1 = hi8 ((words s).getD i 0) ∧
        byteAt v (wordPlaces o (valWidth t) i).2 = lo8 ((words s).getD i 0)) ∧
      Extends t (((List.range v.length).map fun j => (byteAt v j).toNat * 2 ^ (8 * (v.length - 1 - j))).sum) u.val

/-- R192: for every type, every order and every VAL canonical for the type, VAL.PACK and then VAL.UNPACK succeeds and
leaves VAL as it was. -/
def Obligations.PackThenUnpackGivesValBack : Prop :=
  ∀ (t : ValType) (o : ByteOrder) (s : State), canonical t s.val = true →
    ∃ u v, exec (.valPack t o) s = .next u ∧ u.errcode = .ok ∧ exec (.valUnpack t o) u = .next v ∧ v.errcode = .ok ∧
      v.val = s.val

/-- R183: the two mappings are inverse: for every type but BOOL and every order, VAL.UNPACK of any words and then VAL.PACK
gives the words back. -/
def Obligations.UnpackThenPackGivesTheWordsBack : Prop :=
  ∀ (t : ValType) (o : ByteOrder) (s : State), t ≠ .bool → s.wcnt.toNat = valWidth t →
    ∃ u v, exec (.valUnpack t o) s = .next u ∧ exec (.valPack t o) u = .next v ∧ v.errcode = .ok ∧
      words v = words s ∧ v.wcnt = s.wcnt

/-! Rules about every command (10_state.md, 41_frame.md, 60_exceptions.md). -/

/-- R26 to R34, R193: no command writes a register that its rules do not list, nor the host's side; SRST alone writes
CMDLATCH, and writes 0 (log 14). -/
def Obligations.CommandsWriteOnlyTheirRegisters : Prop :=
  ∀ (i : Instr) (s t : State), exec i s = .next t →
    (∀ r, r ≠ .status → r ∉ mayWrite i → readReg t r = readReg s r) ∧
      t.cmdlatch = (if i = .srst then 0x00000000 else s.cmdlatch) ∧
      t = { t with host := s.host, reads := s.reads, wait := s.wait, latencies := s.latencies, issued := s.issued }

/-- R35, R36, R130: only the frame commands and RX.APP change FBUF, only the deframe commands PBUF; the other commands
change no byte. -/
def Obligations.CommandsWriteOnlyTheirBuffer : Prop :=
  ∀ (i : Instr) (s t : State), exec i s = .next t →
    match i with
    | .frmTcp _ | .frmRtu | .frmAsc | .rxApp _ =>
      ∀ a, Buffer.fbuf.holds a = false → Memory.read t.mem a = Memory.read s.mem a
    | .dfrTcp _ | .dfrRtu | .dfrAsc => ∀ a, Buffer.pbuf.holds a = false → Memory.read t.mem a = Memory.read s.mem a
    | .crcInit | .crcUpd _ | .lrcInit | .lrcUpd _ | .rxRst | .valPack _ _ | .valUnpack _ _ | .srst => t.mem = s.mem

/-- R224: a command that fails changes only ERRCODE and BUSY. -/
def Obligations.FailedCommandsChangeOnlyStatus : Prop :=
  ∀ (i : Instr) (s t : State), exec i s = .next t → t.errcode ≠ .ok →
    t = { s with errcode := t.errcode, busy := false }

/-- R222: a command that completes ends with OK or with one of its codes, and BUSY reads 0 (R23). -/
def Obligations.CommandsEndWithTheirCodes : Prop :=
  ∀ (i : Instr) (s t : State), exec i s = .next t → t.busy = false ∧ (t.errcode = .ok ∨ t.errcode ∈ codesOf i)

/-- R220, R225: no command is refused, and the only fault a command meets is a read of an unwritten byte of the current PDU
(a frame command) or frame (a deframe command). -/
def Obligations.CommandsStopOnlyOnUnwrittenBytes : Prop :=
  ∀ (i : Instr) (s : State),
    (∃ t, exec i s = .next t) ∨
      ∃ b j, exec i s = .fault (.unwrittenRead b j) ∧ readsBuffer i = some b ∧ byteOf s b j = none ∧
        j < (match b with | .pbuf => s.plen.toNat | .fbuf => s.flen.toNat)

/-- R35, R36, R130: bytes of PBUF at and above PLEN, and of FBUF at and above FLEN, are used by no command: from states
that differ only in them, a command meets the same fault or leaves the same registers and stores the same bytes. -/
def Obligations.CommandsUseOnlyTheCurrentPduAndFrame : Prop :=
  ∀ (i : Instr) (s : State) (m : List Host.Cell),
    (∀ j, j < s.plen.toNat → Memory.read m (Buffer.pbuf.addr j) = byteOf s .pbuf j) →
    (∀ j, j < s.flen.toNat → Memory.read m (Buffer.fbuf.addr j) = byteOf s .fbuf j) →
    (∀ t, exec i s = .next t → ∃ u, exec i { s with mem := m } = .next u ∧ u = { t with mem := u.mem } ∧
      ∀ a, Memory.read u.mem a = Memory.read t.mem a ∨
        (Memory.read u.mem a = Memory.read m a ∧ Memory.read t.mem a = Memory.read s.mem a)) ∧
    ∀ f, exec i s = .fault f → exec i { s with mem := m } = .fault f

/-! The host's side (10_state.md, 20_memory.md, 60_exceptions.md). -/

/-- R22, R24, R25, R221: the fields of STATUS, with the number ERRCODE shows for each result. -/
def Obligations.StatusWordFields : Prop :=
  ∀ s : State, (statusWord s).getLsbD 0 = s.busy ∧ ((statusWord s).getLsbD 1 = true ↔ s.errcode ≠ .ok) ∧
    (statusWord s).extractLsb' 2 2 = 0#2 ∧ (statusWord s).extractLsb' 4 4 = s.errcode.number ∧
    ((statusWord s).getLsbD 8 = true ↔ 4 ≤ s.flen.toNat ∧ s.crc = 0x0000) ∧
    (statusWord s).extractLsb' 9 23 = 0#23 ∧
    ([.ok, .illegalCmd, .valPduLen, .valUnit, .frmChecksum, .frmHex, .frmTerminator, .frmHeader, .frmLength, .trnTid,
      .codWcnt, .codType, .bufOverflow].map ErrCode.number =
      [0x0, 0x1, 0x2, 0x3, 0x4, 0x5, 0x6, 0x7, 0x8, 0x9, 0xA, 0xB, 0xC])

/-- R21: a write to CMD while BUSY = 0 latches the word, sets BUSY and clears ERRCODE, and nothing else of the block; a read
of CMD returns 0 and has no effect. The command then waits some number of steps (the free value LATENCY, log 1). -/
def Obligations.CmdWriteIssuesACommand : Prop :=
  ∀ (s : State) (c : Word32) (rest : List HostOp), s.busy = false →
    (s.host = .wr 0x000 c :: rest → ∃ n, step s = .next { s with
      cmdlatch := c, busy := true, errcode := .ok, host := rest, wait := n, latencies := s.latencies.tail,
      issued := s.issued + 1 }) ∧
    (s.host = .rd 0x000 :: rest → step s = .next { s with host := rest, reads := s.reads ++ [0x00000000] })

/-- R227: while a command is in progress a 32-bit read of STATUS returns STATUS and changes nothing of the block; any other
access is a busy violation. -/
def Obligations.OnlyStatusIsReadableWhileBusy : Prop :=
  ∀ (s : State) (rest : List HostOp), s.busy = true → 0 < s.wait →
    (s.host = .rd 0x004 :: rest →
      step s = .next { s with host := rest, reads := s.reads ++ [statusWord s], wait := s.wait - 1 }) ∧
    ∀ off : Offset,
      (off ≠ 0x004 → s.host = .rd off :: rest → step s = .fault (.busyViolation off)) ∧
        (∀ v, s.host = .wr off v :: rest → step s = .fault (.busyViolation off)) ∧
        (s.host = .rdb off :: rest → step s = .fault (.busyViolation off)) ∧
        (∀ v, s.host = .wrb off v :: rest → step s = .fault (.busyViolation off)) ∧
        (s.host = .rdh off :: rest → step s = .fault (.busyViolation off)) ∧
        ∀ v, s.host = .wrh off v :: rest → step s = .fault (.busyViolation off)

/-- R62, R64: a 32-bit access is accepted exactly at an offset below 0x034 that is a multiple of 4; a read there returns
the register at that offset and has no effect on the block, a write there is a write to that register; every other 32-bit
access, and every 16-bit access, is a bus error. -/
def Obligations.RegistersTakeAlignedWordAccesses : Prop :=
  ∀ (s : State) (off : Offset) (rest : List HostOp), s.busy = false →
    (s.host = .rd off :: rest →
      if off.toNat % 4 = 0 ∧ off.toNat < 0x34 then
        ∃ r : Reg, r.offset = off ∧ step s = .next { s with host := rest, reads := s.reads ++ [readReg s r] }
      else step s = .fault (.busError off)) ∧
    (∀ v, s.host = .wr off v :: rest →
      if off.toNat % 4 = 0 ∧ off.toNat < 0x34 then
        ∃ r : Reg, r.offset = off ∧ step s = .next (writeReg { s with host := rest } r v)
      else step s = .fault (.busError off)) ∧
    (s.host = .rdh off :: rest → step s = .fault (.busError off)) ∧
    ∀ v, s.host = .wrh off v :: rest → step s = .fault (.busError off)

/-- R20, R21, R26 to R34: what a 32-bit read of each of the thirteen registers returns while BUSY = 0; it changes nothing of
the block. -/
def Obligations.RegisterReadsReturnTheirContent : Prop :=
  ∀ (s : State) (rest : List HostOp), s.busy = false →
    ∀ c ∈ ([(0x000, 0x00000000), (0x004, statusWord s), (0x008, s.crc.setWidth 32),
        (0x00C, s.sum.setWidth 32 ||| (BitVec.ofNat 8 (0x100 - s.sum.toNat)).setWidth 32 <<< 8),
        (0x010, s.unit.setWidth 32), (0x014, s.tid.setWidth 32), (0x018, s.plen.setWidth 32), (0x01C, s.flen.setWidth 32),
        (0x020, s.val.extractLsb' 0 32), (0x024, s.val.extractLsb' 32 32), (0x028, s.w1 ++ s.w0), (0x02C, s.w3 ++ s.w2),
        (0x030, s.wcnt.setWidth 32)] : List (Offset × Word32)),
      s.host = .rd c.1 :: rest → step s = .next { s with host := rest, reads := s.reads ++ [c.2] }

/-- R61, R63, R64, R66: an 8-bit access is accepted exactly at 0x400 to 0x4FC and at 0x800 to 0xA00, whatever PLEN and FLEN
hold; a write changes that byte alone; a read of a written byte returns it, of an unwritten one faults; every other 8-bit
access is a bus error. -/
def Obligations.BuffersTakeByteAccesses : Prop :=
  ∀ (s : State) (off : Offset) (rest : List HostOp), s.busy = false →
    if (0x400 ≤ off.toNat ∧ off.toNat ≤ 0x4FC) ∨ (0x800 ≤ off.toNat ∧ off.toNat ≤ 0xA00) then
      (∀ v, s.host = .wrb off v :: rest → ∃ t, step s = .next t ∧ t = { s with mem := t.mem, host := rest } ∧
        Memory.read t.mem off.toNat = some v ∧
        ∀ a, a ≠ off.toNat → Memory.read t.mem a = Memory.read s.mem a) ∧
      (s.host = .rdb off :: rest →
        (∀ x, Memory.read s.mem off.toNat = some x →
          step s = .next { s with host := rest, reads := s.reads ++ [x.setWidth 32] }) ∧
        (Memory.read s.mem off.toNat = none → ∃ b i, b.addr i = off.toNat ∧ step s = .fault (.unwrittenRead b i)))
    else
      (s.host = .rdb off :: rest → step s = .fault (.busError off)) ∧
      ∀ v, s.host = .wrb off v :: rest → step s = .fault (.busError off)

/-- R26 to R34, R37: what a register reads after a 32-bit write of v to it: its RW fields hold v's bits, reserved bits read
0, and CMD, STATUS and the LRC field are no storage for v; VAL_LO and VAL_HI leave each other alone. -/
def Obligations.RegistersReadBackTheirFields : Prop :=
  ∀ (s : State) (v : Word32),
    readReg (writeReg s .crc v) .crc = v &&& 0x0000FFFF ∧ readReg (writeReg s .unit v) .unit = v &&& 0x000000FF ∧
      readReg (writeReg s .tid v) .tid = v &&& 0x0000FFFF ∧ readReg (writeReg s .plen v) .plen = v &&& 0x000001FF ∧
      readReg (writeReg s .flen v) .flen = v &&& 0x000003FF ∧ readReg (writeReg s .wcnt v) .wcnt = v &&& 0x00000007 ∧
      readReg (writeReg s .valLo v) .valLo = v ∧ readReg (writeReg s .valLo v) .valHi = readReg s .valHi ∧
      readReg (writeReg s .valHi v) .valHi = v ∧ readReg (writeReg s .valHi v) .valLo = readReg s .valLo ∧
      readReg (writeReg s .w01 v) .w01 = v ∧ readReg (writeReg s .w23 v) .w23 = v ∧
      (readReg (writeReg s .lrc v) .lrc).toNat = v.toNat % 256 + 256 * ((256 - v.toNat % 256) % 256) ∧
      writeReg s .status v = s ∧ readReg s .cmd = 0

/-- R26 to R37: a 32-bit write by the host to a register other than CMD sets its own fields from the written value and
changes nothing else of the block; VAL_LO and VAL_HI each keep the other half of VAL (R32). CMD's write is
CmdWriteIssuesACommand. -/
def Obligations.RegisterWritesChangeOnlyTheirFields : Prop :=
  ∀ (s : State) (v : Word32) (rest : List HostOp), s.busy = false →
    (s.host = .wr 0x004 v :: rest → step s = .next { s with host := rest }) ∧
    (s.host = .wr 0x008 v :: rest → step s = .next { s with host := rest, crc := v.setWidth 16 }) ∧
    (s.host = .wr 0x00C v :: rest → step s = .next { s with host := rest, sum := v.setWidth 8 }) ∧
    (s.host = .wr 0x010 v :: rest → step s = .next { s with host := rest, unit := v.setWidth 8 }) ∧
    (s.host = .wr 0x014 v :: rest → step s = .next { s with host := rest, tid := v.setWidth 16 }) ∧
    (s.host = .wr 0x018 v :: rest → step s = .next { s with host := rest, plen := v.setWidth 9 }) ∧
    (s.host = .wr 0x01C v :: rest → step s = .next { s with host := rest, flen := v.setWidth 10 }) ∧
    (s.host = .wr 0x020 v :: rest → step s = .next { s with host := rest, val := s.val.extractLsb' 32 32 ++ v }) ∧
    (s.host = .wr 0x024 v :: rest → step s = .next { s with host := rest, val := v ++ s.val.extractLsb' 0 32 }) ∧
    (s.host = .wr 0x028 v :: rest →
      step s = .next { s with host := rest, w0 := v.extractLsb' 0 16, w1 := v.extractLsb' 16 16 }) ∧
    (s.host = .wr 0x02C v :: rest →
      step s = .next { s with host := rest, w2 := v.extractLsb' 0 16, w3 := v.extractLsb' 16 16 }) ∧
    (s.host = .wr 0x030 v :: rest → step s = .next { s with host := rest, wcnt := v.setWidth 3 })

/-- R71, R226: between issue and completion no register and no buffer byte changes; the host only reads STATUS. A reset is
the one event that ends this. -/
def Obligations.NothingChangesBeforeCompletion : Prop :=
  ∀ s t : State, s.busy = true → 0 < s.wait → s.host.head? ≠ some .powerOnReset → step s = .next t →
    t = { s with host := t.host, reads := t.reads, wait := s.wait - 1 }

/-- R96, R226, R260: a WAIT reads STATUS until BUSY reads 0, whatever LATENCY is (log 1). While a command is in progress
each of LATENCY's remaining steps reads STATUS once and changes nothing else, the step after them is the completion on the
state at issue, and the WAIT is still to do; with BUSY = 0 it reads STATUS once more, ends, and changes nothing of the
block. -/
def Obligations.WaitingHostSeesTheCompletion : Prop :=
  ∀ (s : State) (rest : List HostOp), s.host = .wait :: rest →
    (s.busy = true → core.run (s.wait + 1) s =
      step { s with wait := 0, reads := s.reads ++ List.replicate s.wait (statusWord s) }) ∧
    (s.busy = false → step s = .next { s with host := rest, reads := s.reads ++ [statusWord s] })

/-- R96, R12: LOADPDU of a unit id and 1 to 253 bytes, on an idle block, runs to its end in as many steps as it has
operations, and leaves UNIT, PLEN and PBUF[0..PLEN) as it says and nothing else changed. -/
def Obligations.LoadPduLoadsThePdu : Prop :=
  ∀ (s : State) (u : Byte) (bs : List Byte) (rest : List HostOp), s.busy = false → bs.length ≤ 253 →
    s.host = loadPdu u bs ++ rest →
    ∃ t, core.run (bs.length + 2) s = .next t ∧
      t = { s with mem := t.mem, unit := u, plen := t.plen, host := rest } ∧ IsPdu t bs ∧ t.plen.toNat = bs.length ∧
      SameOutside s t .pbuf bs.length
end

