-- ==== Sys2Proof/Laws/State.lean ====
section
/-! SUPPORT. One lemma per field per named update of State, so that no proof unfolds a record update. -/

namespace Sys2Proof.Machine

/-! withResult -/

@[simp] theorem withResult_busy (s : State) (c : ErrCode) : (withResult s c).busy = false := rfl
@[simp] theorem withResult_errcode (s : State) (c : ErrCode) : (withResult s c).errcode = c := rfl
@[simp] theorem withResult_cmdlatch (s : State) (c : ErrCode) : (withResult s c).cmdlatch = s.cmdlatch := rfl
@[simp] theorem withResult_crc (s : State) (c : ErrCode) : (withResult s c).crc = s.crc := rfl
@[simp] theorem withResult_sum (s : State) (c : ErrCode) : (withResult s c).sum = s.sum := rfl
@[simp] theorem withResult_unit (s : State) (c : ErrCode) : (withResult s c).unit = s.unit := rfl
@[simp] theorem withResult_tid (s : State) (c : ErrCode) : (withResult s c).tid = s.tid := rfl
@[simp] theorem withResult_plen (s : State) (c : ErrCode) : (withResult s c).plen = s.plen := rfl
@[simp] theorem withResult_flen (s : State) (c : ErrCode) : (withResult s c).flen = s.flen := rfl
@[simp] theorem withResult_val (s : State) (c : ErrCode) : (withResult s c).val = s.val := rfl
@[simp] theorem withResult_w0 (s : State) (c : ErrCode) : (withResult s c).w0 = s.w0 := rfl
@[simp] theorem withResult_w1 (s : State) (c : ErrCode) : (withResult s c).w1 = s.w1 := rfl
@[simp] theorem withResult_w2 (s : State) (c : ErrCode) : (withResult s c).w2 = s.w2 := rfl
@[simp] theorem withResult_w3 (s : State) (c : ErrCode) : (withResult s c).w3 = s.w3 := rfl
@[simp] theorem withResult_wcnt (s : State) (c : ErrCode) : (withResult s c).wcnt = s.wcnt := rfl
@[simp] theorem withResult_mem (s : State) (c : ErrCode) : (withResult s c).mem = s.mem := rfl
@[simp] theorem withResult_host (s : State) (c : ErrCode) : (withResult s c).host = s.host := rfl
@[simp] theorem withResult_reads (s : State) (c : ErrCode) : (withResult s c).reads = s.reads := rfl
@[simp] theorem withResult_wait (s : State) (c : ErrCode) : (withResult s c).wait = s.wait := rfl
@[simp] theorem withResult_latencies (s : State) (c : ErrCode) : (withResult s c).latencies = s.latencies := rfl
@[simp] theorem withResult_issued (s : State) (c : ErrCode) : (withResult s c).issued = s.issued := rfl

/-! issue -/

@[simp] theorem issue_busy (c : Word32) (s : State) : (issue c s).busy = true := rfl
@[simp] theorem issue_errcode (c : Word32) (s : State) : (issue c s).errcode = .ok := rfl
@[simp] theorem issue_cmdlatch (c : Word32) (s : State) : (issue c s).cmdlatch = c := rfl
@[simp] theorem issue_crc (c : Word32) (s : State) : (issue c s).crc = s.crc := rfl
@[simp] theorem issue_sum (c : Word32) (s : State) : (issue c s).sum = s.sum := rfl
@[simp] theorem issue_unit (c : Word32) (s : State) : (issue c s).unit = s.unit := rfl
@[simp] theorem issue_tid (c : Word32) (s : State) : (issue c s).tid = s.tid := rfl
@[simp] theorem issue_plen (c : Word32) (s : State) : (issue c s).plen = s.plen := rfl
@[simp] theorem issue_flen (c : Word32) (s : State) : (issue c s).flen = s.flen := rfl
@[simp] theorem issue_val (c : Word32) (s : State) : (issue c s).val = s.val := rfl
@[simp] theorem issue_w0 (c : Word32) (s : State) : (issue c s).w0 = s.w0 := rfl
@[simp] theorem issue_w1 (c : Word32) (s : State) : (issue c s).w1 = s.w1 := rfl
@[simp] theorem issue_w2 (c : Word32) (s : State) : (issue c s).w2 = s.w2 := rfl
@[simp] theorem issue_w3 (c : Word32) (s : State) : (issue c s).w3 = s.w3 := rfl
@[simp] theorem issue_wcnt (c : Word32) (s : State) : (issue c s).wcnt = s.wcnt := rfl
@[simp] theorem issue_mem (c : Word32) (s : State) : (issue c s).mem = s.mem := rfl
@[simp] theorem issue_host (c : Word32) (s : State) : (issue c s).host = s.host := rfl
@[simp] theorem issue_reads (c : Word32) (s : State) : (issue c s).reads = s.reads := rfl
@[simp] theorem issue_wait (c : Word32) (s : State) : (issue c s).wait = nextLatency s := rfl
@[simp] theorem issue_latencies (c : Word32) (s : State) : (issue c s).latencies = s.latencies.tail := rfl
@[simp] theorem issue_issued (c : Word32) (s : State) : (issue c s).issued = s.issued + 1 := rfl

/-! logRead -/

@[simp] theorem logRead_busy (s : State) (v : Word32) : (logRead s v).busy = s.busy := rfl
@[simp] theorem logRead_errcode (s : State) (v : Word32) : (logRead s v).errcode = s.errcode := rfl
@[simp] theorem logRead_cmdlatch (s : State) (v : Word32) : (logRead s v).cmdlatch = s.cmdlatch := rfl
@[simp] theorem logRead_crc (s : State) (v : Word32) : (logRead s v).crc = s.crc := rfl
@[simp] theorem logRead_sum (s : State) (v : Word32) : (logRead s v).sum = s.sum := rfl
@[simp] theorem logRead_unit (s : State) (v : Word32) : (logRead s v).unit = s.unit := rfl
@[simp] theorem logRead_tid (s : State) (v : Word32) : (logRead s v).tid = s.tid := rfl
@[simp] theorem logRead_plen (s : State) (v : Word32) : (logRead s v).plen = s.plen := rfl
@[simp] theorem logRead_flen (s : State) (v : Word32) : (logRead s v).flen = s.flen := rfl
@[simp] theorem logRead_val (s : State) (v : Word32) : (logRead s v).val = s.val := rfl
@[simp] theorem logRead_w0 (s : State) (v : Word32) : (logRead s v).w0 = s.w0 := rfl
@[simp] theorem logRead_w1 (s : State) (v : Word32) : (logRead s v).w1 = s.w1 := rfl
@[simp] theorem logRead_w2 (s : State) (v : Word32) : (logRead s v).w2 = s.w2 := rfl
@[simp] theorem logRead_w3 (s : State) (v : Word32) : (logRead s v).w3 = s.w3 := rfl
@[simp] theorem logRead_wcnt (s : State) (v : Word32) : (logRead s v).wcnt = s.wcnt := rfl
@[simp] theorem logRead_mem (s : State) (v : Word32) : (logRead s v).mem = s.mem := rfl
@[simp] theorem logRead_host (s : State) (v : Word32) : (logRead s v).host = s.host := rfl
@[simp] theorem logRead_reads (s : State) (v : Word32) : (logRead s v).reads = s.reads ++ [v] := rfl
@[simp] theorem logRead_wait (s : State) (v : Word32) : (logRead s v).wait = s.wait := rfl
@[simp] theorem logRead_latencies (s : State) (v : Word32) : (logRead s v).latencies = s.latencies := rfl
@[simp] theorem logRead_issued (s : State) (v : Word32) : (logRead s v).issued = s.issued := rfl

/-! popHost -/

@[simp] theorem popHost_busy (s : State) : (popHost s).busy = s.busy := rfl
@[simp] theorem popHost_errcode (s : State) : (popHost s).errcode = s.errcode := rfl
@[simp] theorem popHost_cmdlatch (s : State) : (popHost s).cmdlatch = s.cmdlatch := rfl
@[simp] theorem popHost_crc (s : State) : (popHost s).crc = s.crc := rfl
@[simp] theorem popHost_sum (s : State) : (popHost s).sum = s.sum := rfl
@[simp] theorem popHost_unit (s : State) : (popHost s).unit = s.unit := rfl
@[simp] theorem popHost_tid (s : State) : (popHost s).tid = s.tid := rfl
@[simp] theorem popHost_plen (s : State) : (popHost s).plen = s.plen := rfl
@[simp] theorem popHost_flen (s : State) : (popHost s).flen = s.flen := rfl
@[simp] theorem popHost_val (s : State) : (popHost s).val = s.val := rfl
@[simp] theorem popHost_w0 (s : State) : (popHost s).w0 = s.w0 := rfl
@[simp] theorem popHost_w1 (s : State) : (popHost s).w1 = s.w1 := rfl
@[simp] theorem popHost_w2 (s : State) : (popHost s).w2 = s.w2 := rfl
@[simp] theorem popHost_w3 (s : State) : (popHost s).w3 = s.w3 := rfl
@[simp] theorem popHost_wcnt (s : State) : (popHost s).wcnt = s.wcnt := rfl
@[simp] theorem popHost_mem (s : State) : (popHost s).mem = s.mem := rfl
@[simp] theorem popHost_host (s : State) : (popHost s).host = s.host.tail := rfl
@[simp] theorem popHost_reads (s : State) : (popHost s).reads = s.reads := rfl
@[simp] theorem popHost_wait (s : State) : (popHost s).wait = s.wait := rfl
@[simp] theorem popHost_latencies (s : State) : (popHost s).latencies = s.latencies := rfl
@[simp] theorem popHost_issued (s : State) : (popHost s).issued = s.issued := rfl

/-! tick -/

@[simp] theorem tick_busy (s : State) : (tick s).busy = s.busy := rfl
@[simp] theorem tick_errcode (s : State) : (tick s).errcode = s.errcode := rfl
@[simp] theorem tick_cmdlatch (s : State) : (tick s).cmdlatch = s.cmdlatch := rfl
@[simp] theorem tick_crc (s : State) : (tick s).crc = s.crc := rfl
@[simp] theorem tick_sum (s : State) : (tick s).sum = s.sum := rfl
@[simp] theorem tick_unit (s : State) : (tick s).unit = s.unit := rfl
@[simp] theorem tick_tid (s : State) : (tick s).tid = s.tid := rfl
@[simp] theorem tick_plen (s : State) : (tick s).plen = s.plen := rfl
@[simp] theorem tick_flen (s : State) : (tick s).flen = s.flen := rfl
@[simp] theorem tick_val (s : State) : (tick s).val = s.val := rfl
@[simp] theorem tick_w0 (s : State) : (tick s).w0 = s.w0 := rfl
@[simp] theorem tick_w1 (s : State) : (tick s).w1 = s.w1 := rfl
@[simp] theorem tick_w2 (s : State) : (tick s).w2 = s.w2 := rfl
@[simp] theorem tick_w3 (s : State) : (tick s).w3 = s.w3 := rfl
@[simp] theorem tick_wcnt (s : State) : (tick s).wcnt = s.wcnt := rfl
@[simp] theorem tick_mem (s : State) : (tick s).mem = s.mem := rfl
@[simp] theorem tick_host (s : State) : (tick s).host = s.host := rfl
@[simp] theorem tick_reads (s : State) : (tick s).reads = s.reads := rfl
@[simp] theorem tick_wait (s : State) : (tick s).wait = s.wait - 1 := rfl
@[simp] theorem tick_latencies (s : State) : (tick s).latencies = s.latencies := rfl
@[simp] theorem tick_issued (s : State) : (tick s).issued = s.issued := rfl

/-! bufWrites -/

@[simp] theorem bufWrites_busy (s : State) (b : Buffer) (i : Nat) (v : List Byte) : (bufWrites s b i v).busy = s.busy := rfl
@[simp] theorem bufWrites_errcode (s : State) (b : Buffer) (i : Nat) (v : List Byte) : (bufWrites s b i v).errcode = s.errcode := rfl
@[simp] theorem bufWrites_cmdlatch (s : State) (b : Buffer) (i : Nat) (v : List Byte) : (bufWrites s b i v).cmdlatch = s.cmdlatch := rfl
@[simp] theorem bufWrites_crc (s : State) (b : Buffer) (i : Nat) (v : List Byte) : (bufWrites s b i v).crc = s.crc := rfl
@[simp] theorem bufWrites_sum (s : State) (b : Buffer) (i : Nat) (v : List Byte) : (bufWrites s b i v).sum = s.sum := rfl
@[simp] theorem bufWrites_unit (s : State) (b : Buffer) (i : Nat) (v : List Byte) : (bufWrites s b i v).unit = s.unit := rfl
@[simp] theorem bufWrites_tid (s : State) (b : Buffer) (i : Nat) (v : List Byte) : (bufWrites s b i v).tid = s.tid := rfl
@[simp] theorem bufWrites_plen (s : State) (b : Buffer) (i : Nat) (v : List Byte) : (bufWrites s b i v).plen = s.plen := rfl
@[simp] theorem bufWrites_flen (s : State) (b : Buffer) (i : Nat) (v : List Byte) : (bufWrites s b i v).flen = s.flen := rfl
@[simp] theorem bufWrites_val (s : State) (b : Buffer) (i : Nat) (v : List Byte) : (bufWrites s b i v).val = s.val := rfl
@[simp] theorem bufWrites_w0 (s : State) (b : Buffer) (i : Nat) (v : List Byte) : (bufWrites s b i v).w0 = s.w0 := rfl
@[simp] theorem bufWrites_w1 (s : State) (b : Buffer) (i : Nat) (v : List Byte) : (bufWrites s b i v).w1 = s.w1 := rfl
@[simp] theorem bufWrites_w2 (s : State) (b : Buffer) (i : Nat) (v : List Byte) : (bufWrites s b i v).w2 = s.w2 := rfl
@[simp] theorem bufWrites_w3 (s : State) (b : Buffer) (i : Nat) (v : List Byte) : (bufWrites s b i v).w3 = s.w3 := rfl
@[simp] theorem bufWrites_wcnt (s : State) (b : Buffer) (i : Nat) (v : List Byte) : (bufWrites s b i v).wcnt = s.wcnt := rfl
@[simp] theorem bufWrites_mem (s : State) (b : Buffer) (i : Nat) (v : List Byte) : (bufWrites s b i v).mem = Memory.writeBytes s.mem (b.addr i) v := rfl
@[simp] theorem bufWrites_host (s : State) (b : Buffer) (i : Nat) (v : List Byte) : (bufWrites s b i v).host = s.host := rfl
@[simp] theorem bufWrites_reads (s : State) (b : Buffer) (i : Nat) (v : List Byte) : (bufWrites s b i v).reads = s.reads := rfl
@[simp] theorem bufWrites_wait (s : State) (b : Buffer) (i : Nat) (v : List Byte) : (bufWrites s b i v).wait = s.wait := rfl
@[simp] theorem bufWrites_latencies (s : State) (b : Buffer) (i : Nat) (v : List Byte) : (bufWrites s b i v).latencies = s.latencies := rfl
@[simp] theorem bufWrites_issued (s : State) (b : Buffer) (i : Nat) (v : List Byte) : (bufWrites s b i v).issued = s.issued := rfl

/-! resetRegisters -/

@[simp] theorem resetRegisters_busy (s : State) : (resetRegisters s).busy = s.busy := rfl
@[simp] theorem resetRegisters_errcode (s : State) : (resetRegisters s).errcode = s.errcode := rfl
@[simp] theorem resetRegisters_cmdlatch (s : State) : (resetRegisters s).cmdlatch = 0x00000000 := rfl
@[simp] theorem resetRegisters_crc (s : State) : (resetRegisters s).crc = 0xFFFF := rfl
@[simp] theorem resetRegisters_sum (s : State) : (resetRegisters s).sum = 0x00 := rfl
@[simp] theorem resetRegisters_unit (s : State) : (resetRegisters s).unit = 0x00 := rfl
@[simp] theorem resetRegisters_tid (s : State) : (resetRegisters s).tid = 0x0000 := rfl
@[simp] theorem resetRegisters_plen (s : State) : (resetRegisters s).plen = 0 := rfl
@[simp] theorem resetRegisters_flen (s : State) : (resetRegisters s).flen = 0 := rfl
@[simp] theorem resetRegisters_val (s : State) : (resetRegisters s).val = 0 := rfl
@[simp] theorem resetRegisters_w0 (s : State) : (resetRegisters s).w0 = 0x0000 := rfl
@[simp] theorem resetRegisters_w1 (s : State) : (resetRegisters s).w1 = 0x0000 := rfl
@[simp] theorem resetRegisters_w2 (s : State) : (resetRegisters s).w2 = 0x0000 := rfl
@[simp] theorem resetRegisters_w3 (s : State) : (resetRegisters s).w3 = 0x0000 := rfl
@[simp] theorem resetRegisters_wcnt (s : State) : (resetRegisters s).wcnt = 0 := rfl
@[simp] theorem resetRegisters_mem (s : State) : (resetRegisters s).mem = s.mem := rfl
@[simp] theorem resetRegisters_host (s : State) : (resetRegisters s).host = s.host := rfl
@[simp] theorem resetRegisters_reads (s : State) : (resetRegisters s).reads = s.reads := rfl
@[simp] theorem resetRegisters_wait (s : State) : (resetRegisters s).wait = s.wait := rfl
@[simp] theorem resetRegisters_latencies (s : State) : (resetRegisters s).latencies = s.latencies := rfl
@[simp] theorem resetRegisters_issued (s : State) : (resetRegisters s).issued = s.issued := rfl

/-! powerOnReset -/

@[simp] theorem powerOnReset_busy (s : State) : (powerOnReset s).busy = false := rfl
@[simp] theorem powerOnReset_errcode (s : State) : (powerOnReset s).errcode = .ok := rfl
@[simp] theorem powerOnReset_cmdlatch (s : State) : (powerOnReset s).cmdlatch = 0x00000000 := rfl
@[simp] theorem powerOnReset_crc (s : State) : (powerOnReset s).crc = 0xFFFF := rfl
@[simp] theorem powerOnReset_sum (s : State) : (powerOnReset s).sum = 0x00 := rfl
@[simp] theorem powerOnReset_unit (s : State) : (powerOnReset s).unit = 0x00 := rfl
@[simp] theorem powerOnReset_tid (s : State) : (powerOnReset s).tid = 0x0000 := rfl
@[simp] theorem powerOnReset_plen (s : State) : (powerOnReset s).plen = 0 := rfl
@[simp] theorem powerOnReset_flen (s : State) : (powerOnReset s).flen = 0 := rfl
@[simp] theorem powerOnReset_val (s : State) : (powerOnReset s).val = 0 := rfl
@[simp] theorem powerOnReset_w0 (s : State) : (powerOnReset s).w0 = 0x0000 := rfl
@[simp] theorem powerOnReset_w1 (s : State) : (powerOnReset s).w1 = 0x0000 := rfl
@[simp] theorem powerOnReset_w2 (s : State) : (powerOnReset s).w2 = 0x0000 := rfl
@[simp] theorem powerOnReset_w3 (s : State) : (powerOnReset s).w3 = 0x0000 := rfl
@[simp] theorem powerOnReset_wcnt (s : State) : (powerOnReset s).wcnt = 0 := rfl
@[simp] theorem powerOnReset_mem (s : State) : (powerOnReset s).mem = [] := rfl
@[simp] theorem powerOnReset_host (s : State) : (powerOnReset s).host = s.host := rfl
@[simp] theorem powerOnReset_reads (s : State) : (powerOnReset s).reads = s.reads := rfl
@[simp] theorem powerOnReset_wait (s : State) : (powerOnReset s).wait = 0 := rfl
@[simp] theorem powerOnReset_latencies (s : State) : (powerOnReset s).latencies = s.latencies := rfl
@[simp] theorem powerOnReset_issued (s : State) : (powerOnReset s).issued = s.issued := rfl

/-! writeWords -/

@[simp] theorem writeWords_busy (s : State) (v : List Word16) : (writeWords s v).busy = s.busy := rfl
@[simp] theorem writeWords_errcode (s : State) (v : List Word16) : (writeWords s v).errcode = s.errcode := rfl
@[simp] theorem writeWords_cmdlatch (s : State) (v : List Word16) : (writeWords s v).cmdlatch = s.cmdlatch := rfl
@[simp] theorem writeWords_crc (s : State) (v : List Word16) : (writeWords s v).crc = s.crc := rfl
@[simp] theorem writeWords_sum (s : State) (v : List Word16) : (writeWords s v).sum = s.sum := rfl
@[simp] theorem writeWords_unit (s : State) (v : List Word16) : (writeWords s v).unit = s.unit := rfl
@[simp] theorem writeWords_tid (s : State) (v : List Word16) : (writeWords s v).tid = s.tid := rfl
@[simp] theorem writeWords_plen (s : State) (v : List Word16) : (writeWords s v).plen = s.plen := rfl
@[simp] theorem writeWords_flen (s : State) (v : List Word16) : (writeWords s v).flen = s.flen := rfl
@[simp] theorem writeWords_val (s : State) (v : List Word16) : (writeWords s v).val = s.val := rfl
@[simp] theorem writeWords_w0 (s : State) (v : List Word16) : (writeWords s v).w0 = v.getD 0 s.w0 := rfl
@[simp] theorem writeWords_w1 (s : State) (v : List Word16) : (writeWords s v).w1 = v.getD 1 s.w1 := rfl
@[simp] theorem writeWords_w2 (s : State) (v : List Word16) : (writeWords s v).w2 = v.getD 2 s.w2 := rfl
@[simp] theorem writeWords_w3 (s : State) (v : List Word16) : (writeWords s v).w3 = v.getD 3 s.w3 := rfl
@[simp] theorem writeWords_wcnt (s : State) (v : List Word16) : (writeWords s v).wcnt = s.wcnt := rfl
@[simp] theorem writeWords_mem (s : State) (v : List Word16) : (writeWords s v).mem = s.mem := rfl
@[simp] theorem writeWords_host (s : State) (v : List Word16) : (writeWords s v).host = s.host := rfl
@[simp] theorem writeWords_reads (s : State) (v : List Word16) : (writeWords s v).reads = s.reads := rfl
@[simp] theorem writeWords_wait (s : State) (v : List Word16) : (writeWords s v).wait = s.wait := rfl
@[simp] theorem writeWords_latencies (s : State) (v : List Word16) : (writeWords s v).latencies = s.latencies := rfl
@[simp] theorem writeWords_issued (s : State) (v : List Word16) : (writeWords s v).issued = s.issued := rfl

/-! putFrame -/

@[simp] theorem putFrame_busy (s : State) (f : List Byte) : (putFrame s f).busy = s.busy := rfl
@[simp] theorem putFrame_errcode (s : State) (f : List Byte) : (putFrame s f).errcode = s.errcode := rfl
@[simp] theorem putFrame_cmdlatch (s : State) (f : List Byte) : (putFrame s f).cmdlatch = s.cmdlatch := rfl
@[simp] theorem putFrame_crc (s : State) (f : List Byte) : (putFrame s f).crc = s.crc := rfl
@[simp] theorem putFrame_sum (s : State) (f : List Byte) : (putFrame s f).sum = s.sum := rfl
@[simp] theorem putFrame_unit (s : State) (f : List Byte) : (putFrame s f).unit = s.unit := rfl
@[simp] theorem putFrame_tid (s : State) (f : List Byte) : (putFrame s f).tid = s.tid := rfl
@[simp] theorem putFrame_plen (s : State) (f : List Byte) : (putFrame s f).plen = s.plen := rfl
@[simp] theorem putFrame_flen (s : State) (f : List Byte) : (putFrame s f).flen = BitVec.ofNat 10 f.length := rfl
@[simp] theorem putFrame_val (s : State) (f : List Byte) : (putFrame s f).val = s.val := rfl
@[simp] theorem putFrame_w0 (s : State) (f : List Byte) : (putFrame s f).w0 = s.w0 := rfl
@[simp] theorem putFrame_w1 (s : State) (f : List Byte) : (putFrame s f).w1 = s.w1 := rfl
@[simp] theorem putFrame_w2 (s : State) (f : List Byte) : (putFrame s f).w2 = s.w2 := rfl
@[simp] theorem putFrame_w3 (s : State) (f : List Byte) : (putFrame s f).w3 = s.w3 := rfl
@[simp] theorem putFrame_wcnt (s : State) (f : List Byte) : (putFrame s f).wcnt = s.wcnt := rfl
@[simp] theorem putFrame_mem (s : State) (f : List Byte) : (putFrame s f).mem = Memory.writeBytes s.mem (Buffer.fbuf.addr 0) f := rfl
@[simp] theorem putFrame_host (s : State) (f : List Byte) : (putFrame s f).host = s.host := rfl
@[simp] theorem putFrame_reads (s : State) (f : List Byte) : (putFrame s f).reads = s.reads := rfl
@[simp] theorem putFrame_wait (s : State) (f : List Byte) : (putFrame s f).wait = s.wait := rfl
@[simp] theorem putFrame_latencies (s : State) (f : List Byte) : (putFrame s f).latencies = s.latencies := rfl
@[simp] theorem putFrame_issued (s : State) (f : List Byte) : (putFrame s f).issued = s.issued := rfl

/-! commitRx -/

@[simp] theorem commitRx_busy (s : State) (u : Byte) (q : List Byte) : (commitRx s u q).busy = s.busy := rfl
@[simp] theorem commitRx_errcode (s : State) (u : Byte) (q : List Byte) : (commitRx s u q).errcode = s.errcode := rfl
@[simp] theorem commitRx_cmdlatch (s : State) (u : Byte) (q : List Byte) : (commitRx s u q).cmdlatch = s.cmdlatch := rfl
@[simp] theorem commitRx_crc (s : State) (u : Byte) (q : List Byte) : (commitRx s u q).crc = s.crc := rfl
@[simp] theorem commitRx_sum (s : State) (u : Byte) (q : List Byte) : (commitRx s u q).sum = s.sum := rfl
@[simp] theorem commitRx_unit (s : State) (u : Byte) (q : List Byte) : (commitRx s u q).unit = u := rfl
@[simp] theorem commitRx_tid (s : State) (u : Byte) (q : List Byte) : (commitRx s u q).tid = s.tid := rfl
@[simp] theorem commitRx_plen (s : State) (u : Byte) (q : List Byte) : (commitRx s u q).plen = BitVec.ofNat 9 q.length := rfl
@[simp] theorem commitRx_flen (s : State) (u : Byte) (q : List Byte) : (commitRx s u q).flen = s.flen := rfl
@[simp] theorem commitRx_val (s : State) (u : Byte) (q : List Byte) : (commitRx s u q).val = s.val := rfl
@[simp] theorem commitRx_w0 (s : State) (u : Byte) (q : List Byte) : (commitRx s u q).w0 = s.w0 := rfl
@[simp] theorem commitRx_w1 (s : State) (u : Byte) (q : List Byte) : (commitRx s u q).w1 = s.w1 := rfl
@[simp] theorem commitRx_w2 (s : State) (u : Byte) (q : List Byte) : (commitRx s u q).w2 = s.w2 := rfl
@[simp] theorem commitRx_w3 (s : State) (u : Byte) (q : List Byte) : (commitRx s u q).w3 = s.w3 := rfl
@[simp] theorem commitRx_wcnt (s : State) (u : Byte) (q : List Byte) : (commitRx s u q).wcnt = s.wcnt := rfl
@[simp] theorem commitRx_mem (s : State) (u : Byte) (q : List Byte) : (commitRx s u q).mem = Memory.writeBytes s.mem (Buffer.pbuf.addr 0) q := rfl
@[simp] theorem commitRx_host (s : State) (u : Byte) (q : List Byte) : (commitRx s u q).host = s.host := rfl
@[simp] theorem commitRx_reads (s : State) (u : Byte) (q : List Byte) : (commitRx s u q).reads = s.reads := rfl
@[simp] theorem commitRx_wait (s : State) (u : Byte) (q : List Byte) : (commitRx s u q).wait = s.wait := rfl
@[simp] theorem commitRx_latencies (s : State) (u : Byte) (q : List Byte) : (commitRx s u q).latencies = s.latencies := rfl
@[simp] theorem commitRx_issued (s : State) (u : Byte) (q : List Byte) : (commitRx s u q).issued = s.issued := rfl

/-! withProgram -/

@[simp] theorem withProgram_busy (s : State) (ops : List HostOp) (l : List Nat) : (withProgram s ops l).busy = s.busy := rfl
@[simp] theorem withProgram_errcode (s : State) (ops : List HostOp) (l : List Nat) : (withProgram s ops l).errcode = s.errcode := rfl
@[simp] theorem withProgram_cmdlatch (s : State) (ops : List HostOp) (l : List Nat) : (withProgram s ops l).cmdlatch = s.cmdlatch := rfl
@[simp] theorem withProgram_crc (s : State) (ops : List HostOp) (l : List Nat) : (withProgram s ops l).crc = s.crc := rfl
@[simp] theorem withProgram_sum (s : State) (ops : List HostOp) (l : List Nat) : (withProgram s ops l).sum = s.sum := rfl
@[simp] theorem withProgram_unit (s : State) (ops : List HostOp) (l : List Nat) : (withProgram s ops l).unit = s.unit := rfl
@[simp] theorem withProgram_tid (s : State) (ops : List HostOp) (l : List Nat) : (withProgram s ops l).tid = s.tid := rfl
@[simp] theorem withProgram_plen (s : State) (ops : List HostOp) (l : List Nat) : (withProgram s ops l).plen = s.plen := rfl
@[simp] theorem withProgram_flen (s : State) (ops : List HostOp) (l : List Nat) : (withProgram s ops l).flen = s.flen := rfl
@[simp] theorem withProgram_val (s : State) (ops : List HostOp) (l : List Nat) : (withProgram s ops l).val = s.val := rfl
@[simp] theorem withProgram_w0 (s : State) (ops : List HostOp) (l : List Nat) : (withProgram s ops l).w0 = s.w0 := rfl
@[simp] theorem withProgram_w1 (s : State) (ops : List HostOp) (l : List Nat) : (withProgram s ops l).w1 = s.w1 := rfl
@[simp] theorem withProgram_w2 (s : State) (ops : List HostOp) (l : List Nat) : (withProgram s ops l).w2 = s.w2 := rfl
@[simp] theorem withProgram_w3 (s : State) (ops : List HostOp) (l : List Nat) : (withProgram s ops l).w3 = s.w3 := rfl
@[simp] theorem withProgram_wcnt (s : State) (ops : List HostOp) (l : List Nat) : (withProgram s ops l).wcnt = s.wcnt := rfl
@[simp] theorem withProgram_mem (s : State) (ops : List HostOp) (l : List Nat) : (withProgram s ops l).mem = s.mem := rfl
@[simp] theorem withProgram_host (s : State) (ops : List HostOp) (l : List Nat) : (withProgram s ops l).host = ops := rfl
@[simp] theorem withProgram_reads (s : State) (ops : List HostOp) (l : List Nat) : (withProgram s ops l).reads = s.reads := rfl
@[simp] theorem withProgram_wait (s : State) (ops : List HostOp) (l : List Nat) : (withProgram s ops l).wait = s.wait := rfl
@[simp] theorem withProgram_latencies (s : State) (ops : List HostOp) (l : List Nat) : (withProgram s ops l).latencies = l := rfl
@[simp] theorem withProgram_issued (s : State) (ops : List HostOp) (l : List Nat) : (withProgram s ops l).issued = s.issued := rfl

/-! withCommand -/

@[simp] theorem withCommand_busy (s : State) (c : Word32) : (withCommand s c).busy = true := rfl
@[simp] theorem withCommand_errcode (s : State) (c : Word32) : (withCommand s c).errcode = .ok := rfl
@[simp] theorem withCommand_cmdlatch (s : State) (c : Word32) : (withCommand s c).cmdlatch = c := rfl
@[simp] theorem withCommand_crc (s : State) (c : Word32) : (withCommand s c).crc = s.crc := rfl
@[simp] theorem withCommand_sum (s : State) (c : Word32) : (withCommand s c).sum = s.sum := rfl
@[simp] theorem withCommand_unit (s : State) (c : Word32) : (withCommand s c).unit = s.unit := rfl
@[simp] theorem withCommand_tid (s : State) (c : Word32) : (withCommand s c).tid = s.tid := rfl
@[simp] theorem withCommand_plen (s : State) (c : Word32) : (withCommand s c).plen = s.plen := rfl
@[simp] theorem withCommand_flen (s : State) (c : Word32) : (withCommand s c).flen = s.flen := rfl
@[simp] theorem withCommand_val (s : State) (c : Word32) : (withCommand s c).val = s.val := rfl
@[simp] theorem withCommand_w0 (s : State) (c : Word32) : (withCommand s c).w0 = s.w0 := rfl
@[simp] theorem withCommand_w1 (s : State) (c : Word32) : (withCommand s c).w1 = s.w1 := rfl
@[simp] theorem withCommand_w2 (s : State) (c : Word32) : (withCommand s c).w2 = s.w2 := rfl
@[simp] theorem withCommand_w3 (s : State) (c : Word32) : (withCommand s c).w3 = s.w3 := rfl
@[simp] theorem withCommand_wcnt (s : State) (c : Word32) : (withCommand s c).wcnt = s.wcnt := rfl
@[simp] theorem withCommand_mem (s : State) (c : Word32) : (withCommand s c).mem = s.mem := rfl
@[simp] theorem withCommand_host (s : State) (c : Word32) : (withCommand s c).host = s.host := rfl
@[simp] theorem withCommand_reads (s : State) (c : Word32) : (withCommand s c).reads = s.reads := rfl
@[simp] theorem withCommand_wait (s : State) (c : Word32) : (withCommand s c).wait = 0 := rfl
@[simp] theorem withCommand_latencies (s : State) (c : Word32) : (withCommand s c).latencies = s.latencies := rfl
@[simp] theorem withCommand_issued (s : State) (c : Word32) : (withCommand s c).issued = s.issued := rfl

/-! reset -/

@[simp] theorem reset_busy : State.reset.busy = false := rfl
@[simp] theorem reset_errcode : State.reset.errcode = .ok := rfl
@[simp] theorem reset_cmdlatch : State.reset.cmdlatch = 0x00000000 := rfl
@[simp] theorem reset_crc : State.reset.crc = 0xFFFF := rfl
@[simp] theorem reset_sum : State.reset.sum = 0x00 := rfl
@[simp] theorem reset_unit : State.reset.unit = 0x00 := rfl
@[simp] theorem reset_tid : State.reset.tid = 0x0000 := rfl
@[simp] theorem reset_plen : State.reset.plen = 0 := rfl
@[simp] theorem reset_flen : State.reset.flen = 0 := rfl
@[simp] theorem reset_val : State.reset.val = 0 := rfl
@[simp] theorem reset_w0 : State.reset.w0 = 0x0000 := rfl
@[simp] theorem reset_w1 : State.reset.w1 = 0x0000 := rfl
@[simp] theorem reset_w2 : State.reset.w2 = 0x0000 := rfl
@[simp] theorem reset_w3 : State.reset.w3 = 0x0000 := rfl
@[simp] theorem reset_wcnt : State.reset.wcnt = 0 := rfl
@[simp] theorem reset_mem : State.reset.mem = [] := rfl
@[simp] theorem reset_host : State.reset.host = [] := rfl
@[simp] theorem reset_reads : State.reset.reads = [] := rfl
@[simp] theorem reset_wait : State.reset.wait = 0 := rfl
@[simp] theorem reset_latencies : State.reset.latencies = [] := rfl
@[simp] theorem reset_issued : State.reset.issued = 0 := rfl

end Sys2Proof.Machine
end

