-- ==== Sys2Proof/Laws/Memory.lean ====
section
/-! SUPPORT. Memory: read after write, and the canonical form. -/

namespace Sys2Proof.Machine

@[simp] theorem Memory.read_nil (a : Nat) : Memory.read [] a = none := rfl

theorem Memory.read_cons (c : Host.Cell) (m : List Host.Cell) (a : Nat) :
    Memory.read (c :: m) a = if c.1 = a then some c.2 else Memory.read m a := rfl

@[simp] theorem Memory.read_write_same (m : List Host.Cell) (a : Nat) (v : Byte) :
    Memory.read (Memory.write m a v) a = some v := by
  induction m with
  | nil => simp [Memory.write, Memory.read_cons]
  | cons c m ih =>
    obtain ⟨b, x⟩ := c
    unfold Memory.write
    split
    · simp [Memory.read_cons]
    · split
      · simp [Memory.read_cons]
      · rename_i h
        simp [Memory.read_cons, h, ih]

theorem Memory.read_write_ne (m : List Host.Cell) {a b : Nat} (v : Byte) (h : b ≠ a) :
    Memory.read (Memory.write m a v) b = Memory.read m b := by
  induction m with
  | nil => simp [Memory.write, Memory.read_cons, h.symm]
  | cons c m ih =>
    obtain ⟨d, x⟩ := c
    unfold Memory.write
    split
    · simp [Memory.read_cons, h.symm]
    · split
      · rename_i hd
        subst hd
        simp [Memory.read_cons, h.symm]
      · simp [Memory.read_cons, ih]

/-- What any address reads as after bytes are written from an address up. -/
theorem Memory.read_writeBytes (v : List Byte) (m : List Host.Cell) (a b : Nat) :
    Memory.read (Memory.writeBytes m a v) b = if a ≤ b ∧ b < a + v.length then v[b - a]? else Memory.read m b := by
  induction v generalizing m a with
  | nil =>
    have : ¬(a ≤ b ∧ b < a + ([] : List Byte).length) := by simp
    rw [if_neg this]; rfl
  | cons x v ih =>
    rw [Memory.writeBytes, ih]
    rcases Nat.lt_trichotomy b a with h | h | h
    · rw [if_neg (by omega), if_neg (by omega), Memory.read_write_ne _ _ (by omega)]
    · subst h
      rw [if_neg (by omega), if_pos (by simp), Memory.read_write_same]
      simp
    · rw [Memory.read_write_ne _ _ (by omega)]
      by_cases hb : b < a + (v.length + 1)
      · rw [if_pos (by omega), if_pos (by simp; omega)]
        have : b - a = (b - (a + 1)) + 1 := by omega
        rw [this, List.getElem?_cons_succ]
      · rw [if_neg (by omega), if_neg (by simp; omega)]

/-- The lowest listed address, where there is one, is above `a`. -/
def Memory.above (a : Nat) (m : List Host.Cell) : Prop := ∀ c, m.head? = some c → a < c.1

theorem Memory.wf_cons (a : Nat) (v : Byte) (m : List Host.Cell) :
    Memory.wf ((a, v) :: m) = true ↔ Memory.above a m ∧ Memory.wf m = true := by
  cases m with
  | nil => simp [Memory.wf, Memory.above]
  | cons c m => obtain ⟨b, y⟩ := c; simp [Memory.wf, Memory.above]

theorem Memory.above_write {a b : Nat} {m : List Host.Cell} (v : Byte) (h : a < b) (hm : Memory.above a m) :
    Memory.above a (Memory.write m b v) := by
  cases m with
  | nil => simpa [Memory.write, Memory.above] using h
  | cons c m =>
    obtain ⟨d, x⟩ := c
    have hd : a < d := by simpa [Memory.above] using hm
    unfold Memory.write
    split
    · simpa [Memory.above] using h
    · split <;> simp [Memory.above] <;> omega

/-- A write keeps the canonical form. -/
theorem Memory.write_wf (m : List Host.Cell) (a : Nat) (v : Byte) (h : Memory.wf m = true) :
    Memory.wf (Memory.write m a v) = true := by
  induction m with
  | nil => simp [Memory.write, Memory.wf]
  | cons c m ih =>
    obtain ⟨b, x⟩ := c
    obtain ⟨hb, hm⟩ := (Memory.wf_cons b x m).1 h
    unfold Memory.write
    split
    · exact (Memory.wf_cons _ _ _).2 ⟨by simpa [Memory.above], h⟩
    · split
      · rename_i hba
        subst hba
        exact (Memory.wf_cons _ _ _).2 ⟨hb, hm⟩
      · exact (Memory.wf_cons _ _ _).2 ⟨Memory.above_write v (by omega) hb, ih hm⟩

/-- Writing bytes keeps the canonical form. -/
theorem Memory.writeBytes_wf (v : List Byte) (m : List Host.Cell) (a : Nat) (h : Memory.wf m = true) :
    Memory.wf (Memory.writeBytes m a v) = true := by
  induction v generalizing m a with
  | nil => exact h
  | cons x v ih => exact ih _ _ (Memory.write_wf _ _ _ h)

/-- Reset memory has the canonical form. -/
theorem reset_memory_wf : Memory.wf State.reset.mem = true := rfl

theorem inBuffers_write (m : List Host.Cell) (b : Buffer) (i : Nat) (v : Byte) (h : inBuffers m = true)
    (hi : i < b.size) : inBuffers (Memory.write m (b.addr i) v) = true := by
  have hb : (Buffer.pbuf.holds (b.addr i) || Buffer.fbuf.holds (b.addr i)) = true := by
    cases b <;> simp [Buffer.holds, Buffer.addr, Buffer.base] at * <;> simp [Buffer.size, Config.pbufSize,
      Config.fbufSize] at * <;> omega
  induction m with
  | nil => simpa [Memory.write, inBuffers] using hb
  | cons c m ih =>
    obtain ⟨d, x⟩ := c
    simp only [inBuffers, List.all_cons, Bool.and_eq_true] at h
    unfold Memory.write
    split
    · simp only [inBuffers, List.all_cons, Bool.and_eq_true]; exact ⟨hb, h⟩
    · split
      · simp only [inBuffers, List.all_cons, Bool.and_eq_true]; exact ⟨hb, h.2⟩
      · simp only [inBuffers, List.all_cons, Bool.and_eq_true]; exact ⟨h.1, ih h.2⟩

/-- Writing bytes within a buffer lists no address outside the buffers. -/
theorem inBuffers_writeBytes (v : List Byte) (m : List Host.Cell) (b : Buffer) (i : Nat) (h : inBuffers m = true)
    (hi : i + v.length ≤ b.size) : inBuffers (Memory.writeBytes m (b.addr i) v) = true := by
  induction v generalizing m i with
  | nil => exact h
  | cons x v ih =>
    simp only [List.length_cons] at hi
    have : b.addr i + 1 = b.addr (i + 1) := by simp [Buffer.addr]; omega
    rw [Memory.writeBytes, this]
    exact ih _ _ (inBuffers_write m b i x h (by omega)) (by omega)

/-- Byte `j` of a buffer after bytes were written into the same buffer from index `i` up. -/
theorem byteOf_bufWrites (s : State) (b : Buffer) (i : Nat) (v : List Byte) (j : Nat) :
    byteOf (bufWrites s b i v) b j = if i ≤ j ∧ j < i + v.length then v[j - i]? else byteOf s b j := by
  unfold byteOf
  rw [bufWrites_mem, Memory.read_writeBytes]
  have : b.addr j - b.addr i = j - i := by simp [Buffer.addr]; omega
  rw [this]
  congr 1
  simp [Buffer.addr]
  omega

/-- Bytes written from index 0 up are what the buffer starts with. -/
theorem starts_bufWrites (s : State) (b : Buffer) (v : List Byte) : Starts (bufWrites s b 0 v) b v := by
  intro j hj
  rw [byteOf_bufWrites, if_pos (by omega)]
  simp [byteAt, hj]

/-- Bytes written from index 0 up leave every other address as it was. -/
theorem sameOutside_bufWrites (s : State) (b : Buffer) (v : List Byte) : SameOutside s (bufWrites s b 0 v) b v.length := by
  intro a ha
  rw [bufWrites_mem, Memory.read_writeBytes, if_neg]
  simpa [Buffer.addr] using ha

end Sys2Proof.Machine
end

