-- ==== Sys2Proof/Laws/Ops.lean ====
section
/-! SUPPORT. What each shared operation can do, said once: completion, buffer reads, the checks of the frame and deframe
commands, the host's step and the machine's. -/

namespace Sys2Proof.Machine

/-! Completion (R226). -/

@[simp] theorem complete_ok (s t : State) : complete s (.ok t) = .next (withResult t .ok) := rfl

@[simp] theorem complete_raise (s : State) (c : ErrCode) : complete s (raise c) = .next (withResult s c) := rfl

@[simp] theorem complete_fault (s : State) (f : Fault) : complete s (.error (.fault f)) = .fault f := rfl

/-- A completion that answers a next state: the rule ran, or it raised a code. -/
theorem complete_next {s t : State} {r : Except Stop State} (h : complete s r = .next t) :
    (∃ u, r = .ok u ∧ t = withResult u .ok) ∨ ∃ c, r = .error (.err c) ∧ t = withResult s c := by
  rcases r with (c | f) | u
  · exact .inr ⟨c, rfl, by simpa [complete] using h.symm⟩
  · simp [complete] at h
  · exact .inl ⟨u, rfl, by simpa using h.symm⟩

/-- A completion never refuses, and faults only where the rule met a fault. -/
theorem complete_cases (s : State) (r : Except Stop State) :
    (∃ t, complete s r = .next t) ∨ ∃ f, r = .error (.fault f) ∧ complete s r = .fault f := by
  rcases r with (c | f) | u
  · exact .inl ⟨_, rfl⟩
  · exact .inr ⟨f, rfl, rfl⟩
  · exact .inl ⟨_, rfl⟩

/-! Reading a buffer (R66). -/

theorem bufRead_eq (s : State) (b : Buffer) (i : Nat) :
    bufRead s b i = match byteOf s b i with
      | some x => .ok x
      | none => .error (.fault (.unwrittenRead b i)) := rfl

/-- A read of bytes that succeeds: all are written, and these are the bytes. -/
theorem bufReads_ok_iff (s : State) (b : Buffer) (n i : Nat) (xs : List Byte) :
    bufReads s b i n = .ok xs ↔ xs.length = n ∧ ∀ j, j < n → byteOf s b (i + j) = some (byteAt xs j) := by
  induction n generalizing i xs with
  | zero =>
    simp only [bufReads]
    constructor
    · intro h; cases h; simp
    · rintro ⟨h, -⟩; rw [List.length_eq_zero_iff.1 h]
  | succ n ih =>
    rw [bufReads, bufRead_eq]
    constructor
    · intro h
      cases hx : byteOf s b i with
      | none => rw [hx] at h; simp [Except.bind] at h
      | some x =>
        rw [hx] at h
        cases hr : bufReads s b (i + 1) n with
        | error e => rw [hr] at h; simp [Except.bind, Except.map] at h
        | ok ys =>
          rw [hr] at h
          simp only [Except.bind, Except.map, Except.ok.injEq] at h
          subst h
          obtain ⟨hl, hy⟩ := (ih _ _).1 hr
          refine ⟨by simp [hl], fun j hj => ?_⟩
          cases j with
          | zero => simpa [byteAt] using hx
          | succ j => simpa [byteAt, Nat.add_assoc, Nat.add_comm 1 j] using hy j (by omega)
    · rintro ⟨hl, h⟩
      cases xs with
      | nil => simp at hl
      | cons x ys =>
        have hx : byteOf s b i = some x := by simpa [byteAt] using h 0 (by omega)
        have hr : bufReads s b (i + 1) n = .ok ys := (ih _ _).2
          ⟨by simpa using hl, fun j hj => by
            simpa [byteAt, Nat.add_assoc, Nat.add_comm 1 j] using h (j + 1) (by omega)⟩
        rw [hx, hr]; rfl

/-- A read of bytes that fails: the first unwritten byte is a model fault. -/
theorem bufReads_error_iff (s : State) (b : Buffer) (n i : Nat) (e : Stop) :
    bufReads s b i n = .error e ↔ ∃ j, j < n ∧ byteOf s b (i + j) = none ∧ (∀ k, k < j → byteOf s b (i + k) ≠ none) ∧
      e = .fault (.unwrittenRead b (i + j)) := by
  induction n generalizing i with
  | zero => simp [bufReads]
  | succ n ih =>
    rw [bufReads, bufRead_eq]
    cases hx : byteOf s b i with
    | none =>
      simp only [Except.bind, Except.error.injEq]
      constructor
      · intro h; exact ⟨0, by omega, by simpa using hx, by omega, h.symm⟩
      · rintro ⟨j, -, -, h, rfl⟩
        have : j = 0 := by
          by_contra hj
          exact h 0 (by omega) (by simpa using hx)
        subst this; rfl
    | some x =>
      have hm : (Except.bind (Except.ok x) fun x => Except.map (fun xs => x :: xs) (bufReads s b (i + 1) n)) = .error e ↔
          bufReads s b (i + 1) n = .error e := by
        cases bufReads s b (i + 1) n <;> simp [Except.bind, Except.map]
      refine hm.trans ((ih (i + 1)).trans ?_)
      constructor
      · rintro ⟨j, hj, hn, hk, rfl⟩
        refine ⟨j + 1, by omega, by simpa [Nat.add_assoc, Nat.add_comm 1 j] using hn, fun k hk' => ?_,
          by simp [Nat.add_assoc, Nat.add_comm 1 j]⟩
        cases k with
        | zero => simp [hx]
        | succ k => simpa [Nat.add_assoc, Nat.add_comm 1 k] using hk k (by omega)
      · rintro ⟨j, hj, hn, hk, rfl⟩
        cases j with
        | zero => simp [hx] at hn
        | succ j =>
          refine ⟨j, by omega, by simpa [Nat.add_assoc, Nat.add_comm 1 j] using hn, fun k hk' => ?_,
            by simp [Nat.add_assoc, Nat.add_comm 1 j]⟩
          simpa [Nat.add_assoc, Nat.add_comm 1 k] using hk (k + 1) (by omega)

/-- Reads of bytes depend on those bytes alone. -/
theorem bufReads_congr {s t : State} {b : Buffer} (n i : Nat) (h : ∀ j, j < n → byteOf t b (i + j) = byteOf s b (i + j)) :
    bufReads t b i n = bufReads s b i n := by
  induction n generalizing i with
  | zero => rfl
  | succ n ih =>
    have h0 : byteOf t b i = byteOf s b i := by simpa using h 0 (by omega)
    rw [bufReads, bufReads, bufRead_eq, bufRead_eq, h0, ih (i + 1) fun j hj => by
      simpa [Nat.add_assoc, Nat.add_comm 1 j] using h (j + 1) (by omega)]

/-! The checks before a frame is built or parsed (R132, R150). -/

theorem checkTx_eq (s : State) : checkTx s =
    if s.plen.toNat < 1 ∨ 253 < s.plen.toNat then raise .valPduLen
    else if 247 < s.unit.toNat then raise .valUnit else bufReads s .pbuf 0 s.plen.toNat := rfl

/-- `check_tx` answers the PDU exactly when there is one to send. -/
theorem checkTx_ok_iff (s : State) (p : List Byte) : checkTx s = .ok p ↔ CanSend s p := by
  rw [checkTx_eq]
  unfold CanSend IsPdu Starts
  split
  · simp [raise]; omega
  · split
    · simp [raise]; omega
    · rw [bufReads_ok_iff]
      simp only [Nat.zero_add]
      constructor
      · rintro ⟨h1, h2⟩; exact ⟨⟨h1, fun j hj => h2 j (by omega)⟩, by omega, by omega, by omega⟩
      · rintro ⟨⟨h1, h2⟩, -⟩; exact ⟨h1, fun j hj => h2 j (by omega)⟩

/-- Every way `check_tx` can stop, in the order of R229. -/
theorem checkTx_error (s : State) (e : Stop) (h : checkTx s = .error e) :
    (e = .err .valPduLen ∧ (s.plen.toNat < 1 ∨ 253 < s.plen.toNat)) ∨
      (e = .err .valUnit ∧ 1 ≤ s.plen.toNat ∧ s.plen.toNat ≤ 253 ∧ 248 ≤ s.unit.toNat) ∨
        ∃ j, j < s.plen.toNat ∧ byteOf s .pbuf j = none ∧ (∀ k, k < j → byteOf s .pbuf k ≠ none) ∧
          e = .fault (.unwrittenRead .pbuf j) := by
  rw [checkTx_eq] at h
  split at h
  · exact .inl ⟨by simpa [raise] using h.symm, by omega⟩
  · split at h
    · exact .inr (.inl ⟨by simpa [raise] using h.symm, by omega, by omega, by omega⟩)
    · obtain ⟨j, h⟩ := (bufReads_error_iff ..).1 h
      simp only [Nat.zero_add] at h
      exact .inr (.inr ⟨j, h⟩)

/-- A deframe command's frame, once FLEN is within its bounds. -/
theorem readFrame_ok_iff (s : State) (lo hi : Nat) (f : List Byte) :
    readFrame s lo hi = .ok f ↔ IsFrame s f ∧ lo ≤ s.flen.toNat ∧ s.flen.toNat ≤ hi := by
  unfold readFrame IsFrame Starts
  split
  · simp [raise]; omega
  · rw [bufReads_ok_iff]
    simp only [Nat.zero_add]
    constructor
    · rintro ⟨h1, h2⟩; exact ⟨⟨h1, fun j hj => h2 j (by omega)⟩, by omega, by omega⟩
    · rintro ⟨⟨h1, h2⟩, -⟩; exact ⟨h1, fun j hj => h2 j (by omega)⟩

/-- Every way reading a frame can stop (R229). -/
theorem readFrame_error (s : State) (lo hi : Nat) (e : Stop) (h : readFrame s lo hi = .error e) :
    (e = .err .frmLength ∧ (s.flen.toNat < lo ∨ hi < s.flen.toNat)) ∨
      ∃ j, j < s.flen.toNat ∧ byteOf s .fbuf j = none ∧ (∀ k, k < j → byteOf s .fbuf k ≠ none) ∧
        e = .fault (.unwrittenRead .fbuf j) := by
  unfold readFrame at h
  split at h
  · exact .inl ⟨by simpa [raise] using h.symm, by assumption⟩
  · obtain ⟨j, h⟩ := (bufReads_error_iff ..).1 h
    simp only [Nat.zero_add] at h
    exact .inr ⟨j, h⟩

/-! Sequences and bytes (R9, R10). -/

@[simp] theorem byteAt_cons_zero (x : Byte) (s : List Byte) : byteAt (x :: s) 0 = x := rfl

@[simp] theorem byteAt_cons_succ (x : Byte) (s : List Byte) (i : Nat) : byteAt (x :: s) (i + 1) = byteAt s i := by
  simp [byteAt]

theorem byteAt_append_left {s t : List Byte} {i : Nat} (h : i < s.length) : byteAt (s ++ t) i = byteAt s i := by
  simp [byteAt, List.getElem?_append_left h]

theorem byteAt_append_right {s t : List Byte} {i : Nat} (h : s.length ≤ i) :
    byteAt (s ++ t) i = byteAt t (i - s.length) := by
  simp [byteAt, List.getElem?_append_right h]

theorem getElem?_eq_byteAt {s : List Byte} {i : Nat} (h : i < s.length) : s[i]? = some (byteAt s i) := by
  simp [byteAt, h]

/-- A sequence is its bytes. -/
theorem eq_of_byteAt {s t : List Byte} (hl : s.length = t.length) (h : ∀ i, i < s.length → byteAt s i = byteAt t i) :
    s = t := by
  refine List.ext_getElem hl fun i h1 h2 => ?_
  have := h i h1
  simpa [byteAt, h1, h2] using this

theorem length_slice (s : List Byte) (i j : Nat) (h : j ≤ s.length) : (slice s i j).length = j - i := by
  simp [slice]; omega

theorem byteAt_slice (s : List Byte) (i j k : Nat) (h : k < j - i) : byteAt (slice s i j) k = byteAt s (i + k) := by
  simp [slice, byteAt, List.getElem?_drop, List.getElem?_take]
  rw [if_pos (by omega)]

@[simp] theorem hi8_be16 (h l : Byte) : hi8 (be16 h l) = h := by
  apply BitVec.eq_of_getLsbD_eq
  intro i hi
  simp [hi8, be16, hi, show ¬(8 + i < 8) by omega, show 8 + i < 16 by omega]

@[simp] theorem lo8_be16 (h l : Byte) : lo8 (be16 h l) = l := by
  apply BitVec.eq_of_getLsbD_eq
  intro i hi
  simp [lo8, be16, hi, show i < 16 by omega]

theorem be16_toNat (h l : Byte) : (be16 h l).toNat = 256 * h.toNat + l.toNat := by
  have hh := h.isLt
  have hl := l.isLt
  unfold be16
  rw [BitVec.toNat_or, BitVec.toNat_shiftLeft, BitVec.toNat_setWidth, BitVec.toNat_setWidth,
    Nat.mod_eq_of_lt (by omega : h.toNat < 2 ^ 16), Nat.mod_eq_of_lt (by omega : l.toNat < 2 ^ 16),
    Nat.shiftLeft_eq, Nat.mod_eq_of_lt (by omega), Nat.mul_comm, ← Nat.two_pow_add_eq_or_of_lt (i := 8) (by omega)]

/-- A word is its two bytes. -/
theorem word_eq_iff (w v : Word16) : w = v ↔ hi8 w = hi8 v ∧ lo8 w = lo8 v := by
  refine ⟨fun h => by simp [h], fun ⟨h1, h2⟩ => ?_⟩
  apply BitVec.eq_of_getLsbD_eq
  intro i hi
  by_cases h8 : i < 8
  · have := congrArg (fun x => x.getLsbD i) h2
    simpa [lo8, h8] using this
  · have := congrArg (fun x => x.getLsbD (i - 8)) h1
    simpa [hi8, show i - 8 < 8 by omega, show 8 + (i - 8) = i by omega] using this

@[simp] theorem be16_hi8_lo8 (w : Word16) : be16 (hi8 w) (lo8 w) = w := (word_eq_iff _ _).2 ⟨by simp, by simp⟩

theorem be16_eq_iff (h l : Byte) (w : Word16) : w = be16 h l ↔ hi8 w = h ∧ lo8 w = l := by
  rw [word_eq_iff]; simp

/-! Checksums (R101, R104). -/

theorem crc16_append (s t : List Byte) : crc16 (s ++ t) = t.foldl crcByte (crc16 s) := by
  simp [crc16, List.foldl_append]

theorem lrcSum_append (s t : List Byte) : lrcSum (s ++ t) = lrcSum s + lrcSum t := by
  simp [lrcSum, BitVec.ofNat_add]

@[simp] theorem lrcSum_singleton (b : Byte) : lrcSum [b] = b := by simp [lrcSum]

/-! The step (R6, R226). -/

/-- A step is the engine's completion or the host's step. -/
theorem step_ready {s : State} (h : engineReady s = true) :
    step s = match decode s.cmdlatch with
      | .ok i => exec i s
      | .error _ => completeIllegal s := by
  unfold step
  exact if_pos h

theorem step_host {s : State} (h : engineReady s = false) : step s = hostStep s := by
  simp [step, h]

@[simp] theorem engineReady_of_not_busy {s : State} (h : s.busy = false) : engineReady s = false := by
  simp [engineReady, h]

theorem engineReady_iff (s : State) : engineReady s = true ↔ s.busy = true ∧ s.wait = 0 := by
  simp [engineReady]

theorem hostStep_nil {s : State} (h : s.host = []) : hostStep s = .next (tick s) := by
  unfold hostStep; rw [h]

theorem hostStep_busy {s : State} {op : HostOp} {rest : List HostOp} (h : s.host = op :: rest) (hb : s.busy = true) :
    hostStep s = hostBusy op s := by
  unfold hostStep; rw [h]; exact if_pos hb

theorem hostStep_idle {s : State} {op : HostOp} {rest : List HostOp} (h : s.host = op :: rest) (hb : s.busy = false) :
    hostStep s = hostIdle op (popHost s) := by
  unfold hostStep; rw [h]; exact if_neg (by simp [hb])

theorem holds_iff (b : Buffer) (a : Nat) : b.holds a = true ↔ b.addr 0 ≤ a ∧ a < b.addr b.size := by
  simp [Buffer.holds, Buffer.addr]

/-- The buffer byte an 8-bit access reaches lies in its buffer, at the access's offset. -/
theorem bufferOfOffset_some {off : Offset} {b : Buffer} {i : Nat} (h : Buffer.ofOffset off = some (b, i)) :
    i < b.size ∧ b.addr i = off.toNat := by
  have aux (b : Buffer) (hp : b.holds off.toNat = true) :
      off.toNat - b.base < b.size ∧ b.addr (off.toNat - b.base) = off.toNat := by
    have := (holds_iff _ _).1 hp
    simp only [Buffer.addr] at this ⊢
    omega
  unfold Buffer.ofOffset at h
  split at h
  · rename_i hp; cases h; exact aux _ hp
  · split at h
    · rename_i hp; cases h; exact aux _ hp
    · cases h

/-- What an idle block's host operation can do: a value is read, a register or a buffer byte is written, or the block is
reset. -/
theorem hostIdle_next {op : HostOp} {s t : State} (h : hostIdle op s = .next t) :
    (∃ v, t = logRead s v) ∨ (∃ r v, t = writeReg s r v) ∨ (∃ b i v, i < b.size ∧ t = bufWrites s b i [v]) ∨
      (op = .powerOnReset ∧ t = powerOnReset s) := by
  cases op <;> simp only [hostIdle] at h
  case rd off =>
    unfold hostRead at h
    split at h
    · exact .inl ⟨_, (Host.Outcome.next.inj h).symm⟩
    · cases h
  case wr off v =>
    unfold hostWrite at h
    split at h
    · exact .inr (.inl ⟨_, _, (Host.Outcome.next.inj h).symm⟩)
    · cases h
  case rdb off =>
    unfold hostReadByte at h
    split at h
    · cases h
    · split at h
      · exact .inl ⟨_, (Host.Outcome.next.inj h).symm⟩
      · cases h
  case wrb off v =>
    unfold hostWriteByte at h
    split at h
    · cases h
    · rename_i b i ho
      exact .inr (.inr (.inl ⟨b, i, v, (bufferOfOffset_some ho).1, (Host.Outcome.next.inj h).symm⟩))
  case wait => exact .inl ⟨_, (Host.Outcome.next.inj h).symm⟩
  case powerOnReset => exact .inr (.inr (.inr ⟨rfl, (Host.Outcome.next.inj h).symm⟩))
  all_goals cases h

/-- What a host operation can do while a command is in progress: STATUS is read, WAIT stays, or the block is reset. -/
theorem hostBusy_next {op : HostOp} {s t : State} (h : hostBusy op s = .next t) :
    (op = .rd Reg.status.offset ∧ t = tick (logRead (popHost s) (statusWord s))) ∨ (op = .wait ∧ t = tick (logRead s (statusWord s))) ∨
      (op = .powerOnReset ∧ t = powerOnReset (popHost s)) := by
  cases op <;> simp only [hostBusy] at h
  case rd off =>
    split at h
    · rename_i ho
      subst ho
      exact .inl ⟨rfl, (Host.Outcome.next.inj h).symm⟩
    · cases h
  case wait => exact .inr (.inl ⟨rfl, (Host.Outcome.next.inj h).symm⟩)
  case powerOnReset => exact .inr (.inr ⟨rfl, (Host.Outcome.next.inj h).symm⟩)
  all_goals cases h

/-- Every next state of a step: the engine completed a command, time passed, or the host's oldest operation took
effect. -/
theorem step_next {s t : State} (h : step s = .next t) :
    (s.busy = true ∧ s.wait = 0 ∧
        ((∃ i, decode s.cmdlatch = .ok i ∧ exec i s = .next t) ∨
          (∃ e, decode s.cmdlatch = .error e) ∧ t = withResult s .illegalCmd)) ∨
      (engineReady s = false ∧
        ((s.host = [] ∧ t = tick s) ∨
          (∃ op rest, s.host = op :: rest ∧ s.busy = true ∧ hostBusy op s = .next t) ∨
          ∃ op rest, s.host = op :: rest ∧ s.busy = false ∧ hostIdle op (popHost s) = .next t)) := by
  cases hr : engineReady s with
  | true =>
    rw [step_ready hr] at h
    obtain ⟨hb, hw⟩ := (engineReady_iff s).1 hr
    refine .inl ⟨hb, hw, ?_⟩
    cases hd : decode s.cmdlatch with
    | ok i => rw [hd] at h; exact .inl ⟨i, rfl, h⟩
    | error e => rw [hd] at h; exact .inr ⟨⟨e, rfl⟩, (Host.Outcome.next.inj h).symm⟩
  | false =>
    rw [step_host hr] at h
    refine .inr ⟨rfl, ?_⟩
    cases hh : s.host with
    | nil => rw [hostStep_nil hh] at h; exact .inl ⟨rfl, (Host.Outcome.next.inj h).symm⟩
    | cons op rest =>
      cases hb : s.busy with
      | true => rw [hostStep_busy hh hb] at h; exact .inr (.inl ⟨op, rest, rfl, rfl, h⟩)
      | false => rw [hostStep_idle hh hb] at h; exact .inr (.inr ⟨op, rest, rfl, rfl, h⟩)

end Sys2Proof.Machine
end

