-- ==== Sys2Proof/Laws/Checksum.lean ====
section
/-! SUPPORT. The CRC register's shift and byte step can be undone, and what two more bytes make of it (R100, R103). -/

namespace Sys2Proof.Machine

theorem ushiftRight_one_inj {x y : Word16} (h0 : x.getLsbD 0 = y.getLsbD 0) (h : x >>> 1 = y >>> 1) : x = y := by
  apply BitVec.eq_of_getLsbD_eq
  intro i hi
  cases i with
  | zero => exact h0
  | succ i =>
    have := congrArg (fun z => z.getLsbD i) h
    simpa [Nat.add_comm 1 i] using this

/-- The bit a shift drops comes back as the top bit, since 0xA001 has it set. -/
theorem crcShift_top (x : Word16) : (crcShift x).getLsbD 15 = x.getLsbD 0 := by
  unfold crcShift
  split
  · rename_i h; rw [h]; simp
  · rename_i h; simp at h; simp [h]

theorem crcShift_inj {x y : Word16} (h : crcShift x = crcShift y) : x = y := by
  have h0 : x.getLsbD 0 = y.getLsbD 0 := by rw [← crcShift_top, ← crcShift_top, h]
  refine ushiftRight_one_inj h0 ?_
  unfold crcShift at h
  rw [← h0] at h
  split at h
  · exact (BitVec.xor_left_inj _).1 h
  · exact h

theorem crcByte_inj_crc {c d : Word16} {b : Byte} (h : crcByte c b = crcByte d b) : c = d :=
  (BitVec.xor_left_inj _).1 (Function.Injective.iterate (fun _ _ => crcShift_inj) 8 h)

theorem crcByte_inj_byte {c : Word16} {a b : Byte} (h : crcByte c a = crcByte c b) : a = b := by
  have h1 : a.setWidth 16 = b.setWidth 16 :=
    (BitVec.xor_right_inj _).1 (Function.Injective.iterate (fun _ _ => crcShift_inj) 8 h)
  apply BitVec.eq_of_toNat_eq
  have := congrArg BitVec.toNat h1
  have ha := a.isLt
  have hb := b.isLt
  simp at this
  omega

theorem foldl_crcByte_inj (q : List Byte) {c d : Word16} (h : q.foldl crcByte c = q.foldl crcByte d) : c = d := by
  induction q generalizing c d with
  | nil => exact h
  | cons x q ih => exact crcByte_inj_crc (ih h)

/-- Eight shifts of a register whose low byte is 0 move its high byte down. -/
theorem crcShift_eight (b : Byte) : crcShift^[8] (b.setWidth 16 <<< 8) = b.setWidth 16 := by
  revert b; decide +kernel

/-- The register's own two bytes, low byte first, bring it to zero. -/
theorem crcByte_crcByte_self (a b : Byte) : crcByte (crcByte (be16 b a) a) b = 0 := by
  have : be16 b a ^^^ a.setWidth 16 = b.setWidth 16 <<< 8 := by
    apply BitVec.eq_of_getLsbD_eq
    intro i hi
    by_cases h : i < 8
    · simp [be16, h]
    · have : a.getLsbD i = false := BitVec.getLsbD_of_ge _ _ (by omega)
      simp [be16, h, this]
  rw [crcByte, crcByte, this, crcShift_eight, BitVec.xor_self]
  decide

/-- Two bytes bring the register to zero exactly when they are its own, low byte first. -/
theorem crcByte_crcByte_eq_zero (c : Word16) (a b : Byte) : crcByte (crcByte c a) b = 0 ↔ c = be16 b a :=
  ⟨fun h => crcByte_inj_crc (crcByte_inj_crc (h.trans (crcByte_crcByte_self a b).symm)),
    fun h => h ▸ crcByte_crcByte_self a b⟩

theorem lrcOfSum_toNat (x : Byte) : (lrcOfSum x).toNat = (256 - x.toNat) % 256 := by simp [lrcOfSum]

/-- Commands one after another, the first of which completes. -/
theorem execAll_cons_next {i : Instr} {is : List Instr} {s t : State} (h : exec i s = .next t) :
    execAll (i :: is) s = execAll is t := by simp [execAll, h]

end Sys2Proof.Machine
end

