-- ==== Sys2Proof/Laws/Decode.lean ====
section
/-! SUPPORT. A command word and its fields hold the same, so decoding is a matter of fields (R81, R87, R88). -/

namespace Sys2Proof

/-- Words with the same fields are the same word. -/
theorem eq_of_fieldsOf {a b : Word32} (h : fieldsOf a = fieldsOf b) : a = b := by
  simp only [fieldsOf, Fields.mk.injEq] at h
  obtain ⟨h0, h1, h2, h3, h4, h5, h6, h7⟩ := h
  have bits : ∀ (st len : Nat), a.extractLsb' st len = b.extractLsb' st len →
      ∀ i, st ≤ i → i < st + len → a.getLsbD i = b.getLsbD i := by
    intro st len h i hi hl
    have := congrArg (fun x => BitVec.getLsbD x (i - st)) h
    simpa [show i - st < len by omega, show st + (i - st) = i by omega] using this
  apply BitVec.eq_of_getLsbD_eq
  intro i hi
  rcases (by omega : i < 8 ∨ (8 ≤ i ∧ i < 16) ∨ (16 ≤ i ∧ i < 19) ∨ (19 ≤ i ∧ i < 20) ∨ (20 ≤ i ∧ i < 22) ∨
    (22 ≤ i ∧ i < 24) ∨ (24 ≤ i ∧ i < 25) ∨ 25 ≤ i) with c | c | c | c | c | c | c | c
  · exact bits 0 8 h0 i (by omega) (by omega)
  · exact bits 8 8 h1 i c.1 c.2
  · exact bits 16 3 h2 i c.1 c.2
  · exact bits 19 1 h3 i c.1 c.2
  · exact bits 20 2 h4 i c.1 c.2
  · exact bits 22 2 h5 i c.1 c.2
  · exact bits 24 1 h6 i c.1 c.2
  · exact bits 25 7 h7 i c (by omega)

/-- The fields of two words' conjunction. -/
def Fields.and (a b : Fields) : Fields :=
  { op := a.op &&& b.op, imm8 := a.imm8 &&& b.imm8, type := a.type &&& b.type, res19 := a.res19 &&& b.res19,
    order := a.order &&& b.order, res22 := a.res22 &&& b.res22, opt := a.opt &&& b.opt, res25 := a.res25 &&& b.res25 }

theorem fieldsOf_and (a b : Word32) : fieldsOf (a &&& b) = (fieldsOf a).and (fieldsOf b) := by
  simp [fieldsOf, Fields.and, BitVec.extractLsb'_and]

/-- A row hits a word when the word's fields, masked, are the row's. -/
theorem Row.hits_iff (r : Row) (c : Word32) :
    r.hits c = true ↔ (fieldsOf c).and (fieldsOf r.mask) = fieldsOf r.pat := by
  rw [← fieldsOf_and, Row.hits, beq_iff_eq]
  exact ⟨fun h => by rw [h], eq_of_fieldsOf⟩

/-- Every row fixes the whole OP field. -/
theorem Row.op_of_hits {r : Row} (hr : r ∈ rows) {c : Word32} (h : r.hits c = true) :
    (fieldsOf c).op = (fieldsOf r.pat).op := by
  have hm : ∀ r ∈ rows, (fieldsOf r.mask).op = 0xFF#8 := by decide
  have hx : ∀ x : BitVec 8, x &&& 0xFF#8 = x := by decide
  have := congrArg Fields.op ((Row.hits_iff r c).1 h)
  simpa only [Fields.and, hm r hr, hx] using this

/-- The codec rows refuse TYPE = 7 and no other type. -/
theorem withType_error_iff (f : Fields) (mk : ValType → ByteOrder → Instr) :
    (∃ e, withType f mk = .error e) ↔ f.type = 7#3 := by
  have h : ∀ x : BitVec 3, ValType.ofCode x = none ↔ x = 7#3 := by decide
  rw [← h, withType]
  cases ValType.ofCode f.type <;> simp

end Sys2Proof
end

