-- ==== Sys2Proof/Laws/Frame.lean ====
section
/-! SUPPORT. The bytes of the frames that are built, what hex decoding answers, and how the frame and deframe commands
end. -/

namespace Sys2Proof.Machine

/-! Frames as bytes (R134, R138, R142). -/

theorem length_mbapFrame (t : Word16) (u : Byte) (p : List Byte) : (mbapFrame t u p).length = p.length + 7 := by
  simp [mbapFrame]

theorem length_rtuFrame (u : Byte) (p : List Byte) : (rtuFrame u p).length = p.length + 3 := by simp [rtuFrame]

theorem take_rtuFrame (u : Byte) (p : List Byte) : (rtuFrame u p).take (p.length + 1) = u :: p := by
  rw [rtuFrame, List.take_append_of_le_length (by simp)]; simp

/-- The CRC bytes of an RTU frame, low byte first (R139). -/
theorem byteAt_rtuFrame_end (u : Byte) (p : List Byte) :
    byteAt (rtuFrame u p) (p.length + 1) = lo8 (rtuCrc u p) ∧ byteAt (rtuFrame u p) (p.length + 2) = hi8 (rtuCrc u p) := by
  constructor <;> rw [rtuFrame, byteAt_append_right (by simp)] <;> simp

theorem length_hexEncode (d : List Byte) : (hexEncode d).length = 2 * d.length := by
  induction d <;> simp [hexEncode]; omega

theorem length_ascBytes (u : Byte) (p : List Byte) : (ascBytes u p).length = p.length + 2 := by simp [ascBytes]

theorem length_ascFrame (u : Byte) (p : List Byte) : (ascFrame u p).length = 2 * p.length + 7 := by
  simp [ascFrame, length_hexEncode, length_ascBytes]; omega

/-- The two characters of byte `j` (R143). -/
theorem byteAt_hexEncode (d : List Byte) (j : Nat) (h : j < d.length) :
    byteAt (hexEncode d) (2 * j) = hexChar ((byteAt d j).extractLsb' 4 4) ∧
      byteAt (hexEncode d) (2 * j + 1) = hexChar ((byteAt d j).extractLsb' 0 4) := by
  induction d generalizing j with
  | nil => simp at h
  | cons x d ih =>
    cases j with
    | zero => simp [hexEncode]
    | succ j => simpa [hexEncode, Nat.mul_add] using ih j (by simpa using h)

theorem byteAt_ascFrame (u : Byte) (p : List Byte) (j : Nat) (h : j < p.length + 2) :
    byteAt (ascFrame u p) (1 + 2 * j) = hexChar ((byteAt (ascBytes u p) j).extractLsb' 4 4) ∧
      byteAt (ascFrame u p) (2 + 2 * j) = hexChar ((byteAt (ascBytes u p) j).extractLsb' 0 4) := by
  have hl := length_ascBytes u p
  have h1 : ([0x3A] ++ hexEncode (ascBytes u p) : List Byte).length = 2 * p.length + 5 := by
    rw [List.length_append, length_hexEncode, hl]; simp; omega
  rw [ascFrame, byteAt_append_left (i := 1 + 2 * j) (by rw [h1]; omega),
    byteAt_append_left (i := 2 + 2 * j) (by rw [h1]; omega), show 1 + 2 * j = 2 * j + 1 by omega,
    show 2 + 2 * j = 2 * j + 1 + 1 by omega, List.singleton_append, byteAt_cons_succ, byteAt_cons_succ]
  exact byteAt_hexEncode _ j (by omega)

theorem byteAt_ascFrame_end (u : Byte) (p : List Byte) :
    byteAt (ascFrame u p) (2 * p.length + 5) = 0x0D ∧ byteAt (ascFrame u p) (2 * p.length + 6) = 0x0A := by
  have hl := length_ascBytes u p
  have hl2 := length_hexEncode (ascBytes u p)
  rw [ascFrame, byteAt_append_right (by simp; omega), byteAt_append_right (by simp; omega)]
  simp only [List.length_append, List.length_singleton, hl2, hl]
  rw [show 2 * p.length + 5 - (1 + 2 * (p.length + 2)) = 0 by omega,
    show 2 * p.length + 6 - (1 + 2 * (p.length + 2)) = 1 by omega]
  exact ⟨rfl, rfl⟩

/-! Hex decoding (R158). -/

theorem hexVal_hexChar (n : BitVec 4) : hexVal (hexChar n) = some n := by revert n; decide

theorem nibbles (x : Byte) : ((x.extractLsb' 4 4).setWidth 8 <<< 4) ||| (x.extractLsb' 0 4).setWidth 8 = x := by
  revert x; decide

/-- Characters that are the digits of bytes decode to them. -/
theorem hexDecode_some (d cs : List Byte) (hl : cs.length = 2 * d.length)
    (h : ∀ j, j < d.length → hexVal (byteAt cs (2 * j)) = some ((byteAt d j).extractLsb' 4 4) ∧
      hexVal (byteAt cs (2 * j + 1)) = some ((byteAt d j).extractLsb' 0 4)) : hexDecode cs = some d := by
  induction d generalizing cs with
  | nil => rw [List.length_eq_zero_iff.1 hl]; rfl
  | cons x d ih =>
    match cs, hl with
    | a :: b :: cs, hl =>
      have h0 := h 0 (by simp)
      simp at h0
      have := ih cs (by simpa [Nat.mul_add] using hl)
        (fun j hj => by simpa [Nat.mul_add] using h (j + 1) (by simpa using hj))
      simp only [hexDecode, h0.1, h0.2, this, nibbles]

/-- A character that is no hex digit leaves nothing to decode. -/
theorem hexDecode_none (cs : List Byte) (h : ∃ j, j < cs.length ∧ hexVal (byteAt cs j) = none) :
    hexDecode cs = none := by
  match cs with
  | [] => simp at h
  | [_] => rfl
  | a :: b :: cs =>
    obtain ⟨j, hj, hn⟩ := h
    rw [hexDecode]
    match j with
    | 0 => simp at hn; simp [hn]
    | 1 => simp at hn; simp [hn]
    | j + 2 => simp [hexDecode_none cs ⟨j, by simpa using hj, by simpa using hn⟩]

/-! The frame commands' ends (R130, R132). -/

theorem exec_frmTcp_next {s : State} {p : List Byte} (inc : Bool) (h : CanSend s p) : exec (.frmTcp inc) s =
    .next (withResult { putFrame s (mbapFrame (txTid inc s) s.unit p) with tid := txTid inc s } .ok) := by
  show complete s (ruleFrmTcp inc s) = _
  rw [ruleFrmTcp, (checkTx_ok_iff s p).2 h]; rfl

theorem exec_frmRtu_next {s : State} {p : List Byte} (h : CanSend s p) : exec .frmRtu s =
    .next (withResult { putFrame s (rtuFrame s.unit p) with crc := rtuCrc s.unit p } .ok) := by
  show complete s (ruleFrmRtu s) = _
  rw [ruleFrmRtu, (checkTx_ok_iff s p).2 h]; rfl

theorem exec_frmAsc_next {s : State} {p : List Byte} (h : CanSend s p) : exec .frmAsc s =
    .next (withResult { putFrame s (ascFrame s.unit p) with sum := lrcSum (s.unit :: p) } .ok) := by
  show complete s (ruleFrmAsc s) = _
  rw [ruleFrmAsc, (checkTx_ok_iff s p).2 h]; rfl

/-- Where `check_tx` stops, so does the command, in the same way. -/
theorem exec_frm_error {i : Instr} {s : State} {e : Stop}
    (hi : i = .frmTcp false ∨ i = .frmTcp true ∨ i = .frmRtu ∨ i = .frmAsc) (h : checkTx s = .error e) :
    exec i s = complete s (.error e) := by
  rcases hi with rfl | rfl | rfl | rfl <;>
    simp only [exec, execFrmTcp, execFrmRtu, execFrmAsc, ruleFrmTcp, ruleFrmRtu, ruleFrmAsc, h] <;> rfl

/-- A frame just put into FBUF, with its length in FLEN, is the current frame. -/
theorem isFrame_of_mem {s t : State} {f : List Byte} (hm : t.mem = Memory.writeBytes s.mem (Buffer.fbuf.addr 0) f)
    (hl : t.flen = BitVec.ofNat 10 f.length) (h : f.length < 1024) : IsFrame t f := by
  refine ⟨by rw [hl]; simp; omega, fun j hj => ?_⟩
  unfold byteOf
  rw [hm]
  exact starts_bufWrites s .fbuf f j hj

/-- Bytes just put into a buffer from index 0 leave the rest of memory alone. -/
theorem sameOutside_of_mem {s t : State} {b : Buffer} {f : List Byte}
    (hm : t.mem = Memory.writeBytes s.mem (b.addr 0) f) : SameOutside s t b f.length := by
  intro a ha
  rw [hm]
  exact sameOutside_bufWrites s b f a ha

/-! The deframe commands' ends (R150). -/

/-- With FLEN within the bounds and all the frame written, a deframe command goes on with the frame. -/
theorem readFrame_bind {s : State} {f : List Byte} (lo hi : Nat) (h : IsFrame s f) (h1 : lo ≤ f.length)
    (h2 : f.length ≤ hi) (k : List Byte → Except Stop State) : (readFrame s lo hi).bind k = k f := by
  rw [(readFrame_ok_iff s lo hi f).2 ⟨h, by rw [← h.1]; exact h1, by rw [← h.1]; exact h2⟩]; rfl

/-- With FLEN outside the bounds it raises FRM_LENGTH. -/
theorem readFrame_bind_length {s : State} {lo hi : Nat} {k : List Byte → Except Stop State}
    (h : s.flen.toNat < lo ∨ hi < s.flen.toNat) : (readFrame s lo hi).bind k = raise .frmLength := by
  rw [readFrame, if_pos h]; rfl

/-- A PDU just put into PBUF, with its length in PLEN (R150). -/
theorem pdu_of_mem {s t : State} {q : List Byte} (hm : t.mem = Memory.writeBytes s.mem (Buffer.pbuf.addr 0) q)
    (hl : t.plen = BitVec.ofNat 9 q.length) (h : q.length ≤ 253) :
    t.plen.toNat = q.length ∧ (∀ j, j < q.length → byteOf t .pbuf j = some (byteAt q j)) ∧
      SameOutside s t .pbuf q.length := by
  refine ⟨by rw [hl]; simp; omega, fun j hj => ?_, sameOutside_of_mem hm⟩
  unfold byteOf
  rw [hm]
  exact starts_bufWrites s .pbuf q j hj

@[simp] theorem slice_zero (f : List Byte) (n : Nat) : slice f 0 n = f.take n := by simp [slice]

theorem be16_eq_zero (a b : Byte) : be16 a b = 0 ↔ a = 0 ∧ b = 0 := by
  have : (0 : Word16) = be16 0 0 := by decide
  rw [this, be16_eq_iff]
  simp

end Sys2Proof.Machine
end

