-- ==== Sys2Proof/Laws/Exec.lean ====
section
/-! SUPPORT. Everything a command can do when it completes, said once for all commands (R224, R226). -/

namespace Sys2Proof.Machine

/-- The characters hex decoding takes are two for each byte it answers. -/
theorem length_of_hexDecode (cs d : List Byte) (h : hexDecode cs = some d) : cs.length = 2 * d.length := by
  match cs with
  | [] => simp [hexDecode] at h; simp [h]
  | [_] => simp [hexDecode] at h
  | x :: y :: cs =>
    rw [hexDecode] at h
    split at h
    · rename_i bs _ _ hb
      simp only [Option.some.injEq] at h
      subst h
      simp [length_of_hexDecode cs bs hb]
      omega
    · cases h

/-- The rule of `i` ran to its end on `s` and left `u`: its effects, before ERRCODE and BUSY. -/
def Ran (i : Instr) (s u : State) : Prop :=
  match i with
  | .crcInit => u = { s with crc := 0xFFFF }
  | .crcUpd b => u = { s with crc := crcByte s.crc b }
  | .lrcInit => u = { s with sum := 0x00 }
  | .lrcUpd b => u = { s with sum := s.sum + b }
  | .frmTcp inc =>
    ∃ p, CanSend s p ∧ u = { putFrame s (mbapFrame (txTid inc s) s.unit p) with tid := txTid inc s }
  | .frmRtu => ∃ p, CanSend s p ∧ u = { putFrame s (rtuFrame s.unit p) with crc := rtuCrc s.unit p }
  | .frmAsc => ∃ p, CanSend s p ∧ u = { putFrame s (ascFrame s.unit p) with sum := lrcSum (s.unit :: p) }
  | .dfrTcp _ =>
    ∃ f, IsFrame s f ∧ 8 ≤ f.length ∧ f.length ≤ 260 ∧
      u = { commitRx s (byteAt f 6) (slice f 7 f.length) with tid := be16 (byteAt f 0) (byteAt f 1) }
  | .dfrRtu =>
    ∃ f, IsFrame s f ∧ 4 ≤ f.length ∧ f.length ≤ 256 ∧
      u = { commitRx s (byteAt f 0) (slice f 1 (f.length - 2)) with crc := crc16 (slice f 0 (f.length - 2)) }
  | .dfrAsc =>
    ∃ f d, IsFrame s f ∧ hexDecode (slice f 1 (f.length - 2)) = some d ∧ 3 ≤ d.length ∧ d.length ≤ 255 ∧
      u = { commitRx s (byteAt d 0) (slice d 1 (d.length - 1)) with sum := lrcSum (slice d 0 (d.length - 1)) }
  | .rxRst => u = { s with flen := 0, crc := 0xFFFF }
  | .rxApp b =>
    s.flen.toNat < 513 ∧
      u = { bufWrites s .fbuf s.flen.toNat [b] with flen := s.flen + 1, crc := crcByte s.crc b }
  | .valPack t o =>
    canonical t s.val = true ∧
      u = { writeWords s (packedWords t o s.val) with wcnt := BitVec.ofNat 3 (valWidth t) }
  | .valUnpack t o =>
    s.wcnt.toNat = valWidth t ∧ ∃ v, unpackedValue t o (words s) = some v ∧ u = { s with val := v }
  | .srst => u = resetRegisters s

theorem map_eq_ok {α β : Type} {x : Except Stop α} {f : α → β} {b : β} (h : x.map f = .ok b) :
    ∃ a, x = .ok a ∧ b = f a := by
  cases x with
  | error e => cases h
  | ok a => exact ⟨a, rfl, by simpa [Except.map] using h.symm⟩

theorem bind_eq_ok {α β : Type} {x : Except Stop α} {f : α → Except Stop β} {b : β} (h : x.bind f = .ok b) :
    ∃ a, x = .ok a ∧ f a = .ok b := by
  cases x with
  | error e => cases h
  | ok a => exact ⟨a, rfl, h⟩

theorem parseTcp_ok {chk : Bool} {s u : State} {f : List Byte} (h : parseTcp chk s f = .ok u) :
    u = { commitRx s (byteAt f 6) (slice f 7 f.length) with tid := be16 (byteAt f 0) (byteAt f 1) } := by
  unfold parseTcp at h
  repeat (split at h; · cases h)
  exact (Except.ok.inj h).symm

theorem parseRtu_ok {s u : State} {f : List Byte} (h : parseRtu s f = .ok u) :
    u = { commitRx s (byteAt f 0) (slice f 1 (f.length - 2)) with crc := crc16 (slice f 0 (f.length - 2)) } := by
  unfold parseRtu at h
  dsimp only at h
  repeat (split at h; · cases h)
  exact (Except.ok.inj h).symm

theorem parseAsc_ok {s u : State} {f : List Byte} (h : parseAsc s f = .ok u) :
    ∃ d, hexDecode (slice f 1 (f.length - 2)) = some d ∧
      u = { commitRx s (byteAt d 0) (slice d 1 (d.length - 1)) with sum := lrcSum (slice d 0 (d.length - 1)) } := by
  unfold parseAsc at h
  dsimp only at h
  repeat (split at h; · cases h)
  rename_i d hd
  refine ⟨d, hd, ?_⟩
  unfold parseAscBytes at h
  dsimp only at h
  repeat (split at h; · cases h)
  exact (Except.ok.inj h).symm

/-- Each command's `exec` is the completion of its rule. -/
theorem exec_eq_complete (i : Instr) (s : State) : exec i s = complete s
    (match i with
    | .crcInit => .ok { s with crc := 0xFFFF }
    | .crcUpd b => .ok { s with crc := crcByte s.crc b }
    | .lrcInit => .ok { s with sum := 0x00 }
    | .lrcUpd b => .ok { s with sum := s.sum + b }
    | .frmTcp inc => ruleFrmTcp inc s
    | .frmRtu => ruleFrmRtu s
    | .frmAsc => ruleFrmAsc s
    | .dfrTcp chk => ruleDfrTcp chk s
    | .dfrRtu => ruleDfrRtu s
    | .dfrAsc => ruleDfrAsc s
    | .rxRst => .ok { s with flen := 0, crc := 0xFFFF }
    | .rxApp b => ruleRxApp b s
    | .valPack t o => ruleValPack t o s
    | .valUnpack t o => ruleValUnpack t o s
    | .srst => .ok (resetRegisters s)) := by
  cases i <;> rfl

/-- Every next state of a command: it failed with a code and no other effect, or its rule ran. -/
theorem exec_next {i : Instr} {s t : State} (h : exec i s = .next t) :
    (∃ c, t = withResult s c) ∨ ∃ u, Ran i s u ∧ t = withResult u .ok := by
  rw [exec_eq_complete] at h
  rcases complete_next h with ⟨u, hr, rfl⟩ | ⟨c, -, rfl⟩
  swap
  · exact .inl ⟨c, rfl⟩
  refine .inr ⟨u, ?_, rfl⟩
  cases i <;> dsimp only at hr <;> unfold Ran <;> dsimp only
  case crcInit => exact (Except.ok.inj hr).symm
  case crcUpd => exact (Except.ok.inj hr).symm
  case lrcInit => exact (Except.ok.inj hr).symm
  case lrcUpd => exact (Except.ok.inj hr).symm
  case frmTcp => obtain ⟨p, hp, rfl⟩ := map_eq_ok hr; exact ⟨p, (checkTx_ok_iff s p).1 hp, rfl⟩
  case frmRtu => obtain ⟨p, hp, rfl⟩ := map_eq_ok hr; exact ⟨p, (checkTx_ok_iff s p).1 hp, rfl⟩
  case frmAsc => obtain ⟨p, hp, rfl⟩ := map_eq_ok hr; exact ⟨p, (checkTx_ok_iff s p).1 hp, rfl⟩
  case dfrTcp =>
    obtain ⟨f, hf, hu⟩ := bind_eq_ok hr
    obtain ⟨h1, h2, h3⟩ := (readFrame_ok_iff s 8 260 f).1 hf
    exact ⟨f, h1, by rw [h1.1]; exact h2, by rw [h1.1]; exact h3, parseTcp_ok hu⟩
  case dfrRtu =>
    obtain ⟨f, hf, hu⟩ := bind_eq_ok hr
    obtain ⟨h1, h2, h3⟩ := (readFrame_ok_iff s 4 256 f).1 hf
    exact ⟨f, h1, by rw [h1.1]; exact h2, by rw [h1.1]; exact h3, parseRtu_ok hu⟩
  case dfrAsc =>
    obtain ⟨f, hf, hu⟩ := bind_eq_ok hr
    obtain ⟨h1, h2, h3⟩ := (readFrame_ok_iff s 9 513 f).1 hf
    obtain ⟨d, hd, hu⟩ := parseAsc_ok hu
    have hl := length_of_hexDecode _ _ hd
    rw [length_slice f 1 (f.length - 2) (by omega)] at hl
    have := h1.1
    exact ⟨f, d, h1, hd, by omega, by omega, hu⟩
  case rxRst => exact (Except.ok.inj hr).symm
  case rxApp =>
    unfold ruleRxApp at hr
    split at hr
    · cases hr
    · rename_i hl
      exact ⟨by simpa [Config.fbufSize] using hl, (Except.ok.inj hr).symm⟩
  case valPack =>
    unfold ruleValPack at hr
    split at hr
    · rename_i hc; exact ⟨hc, (Except.ok.inj hr).symm⟩
    · cases hr
  case valUnpack =>
    unfold ruleValUnpack at hr
    split at hr
    · cases hr
    · rename_i hw
      split at hr
      · rename_i v hv; exact ⟨not_not.1 hw, v, hv, (Except.ok.inj hr).symm⟩
      · cases hr
  case srst => exact (Except.ok.inj hr).symm

/-! Runs. -/

theorem run_succ_of_next (M : Host.Core) {n : Nat} {s t : M.State} (h : M.step s = .next t) :
    M.run (n + 1) s = M.run n t := by
  rw [Host.Core.run, h]

theorem run_one_eq_step (M : Host.Core) (s : M.State) : M.run 1 s = M.step s := by
  rw [Host.Core.run]
  cases M.step s <;> rfl

/-- A run whose first step goes on. -/
theorem run_succ_next {n : Nat} {s t : State} (h : step s = .next t) : core.run (n + 1) s = core.run n t :=
  run_succ_of_next core h

/-- A run of one step is the step. -/
theorem run_one (s : State) : core.run 1 s = step s := run_one_eq_step core s

end Sys2Proof.Machine
end

