-- ==== Sys2Proof/Laws/PerInstr.lean ====
section
/-! SUPPORT. Per instruction: its word is well formed, field by field (R82, R84, R89). -/

namespace Sys2Proof.Laws.EncodesWell

/-- The word of `i` has an assigned OP, zero reserved bits, zeros in the fields `i` does not use, and a legal TYPE. -/
def Statement (i : Instr) : Prop := (fieldsOf (encode i)).wellFormed = true

theorem crcInit : Statement .crcInit := rfl

theorem crcUpd (b : Byte) : Statement (.crcUpd b) := by revert b; unfold Statement; decide

theorem lrcInit : Statement .lrcInit := rfl

theorem lrcUpd (b : Byte) : Statement (.lrcUpd b) := by revert b; unfold Statement; decide

theorem frmTcp (inc : Bool) : Statement (.frmTcp inc) := by cases inc <;> rfl

theorem frmRtu : Statement .frmRtu := rfl

theorem frmAsc : Statement .frmAsc := rfl

theorem dfrTcp (chk : Bool) : Statement (.dfrTcp chk) := by cases chk <;> rfl

theorem dfrRtu : Statement .dfrRtu := rfl

theorem dfrAsc : Statement .dfrAsc := rfl

theorem rxRst : Statement .rxRst := rfl

theorem rxApp (b : Byte) : Statement (.rxApp b) := by revert b; unfold Statement; decide

theorem valPack (t : ValType) (o : ByteOrder) : Statement (.valPack t o) := by cases t <;> cases o <;> rfl

theorem valUnpack (t : ValType) (o : ByteOrder) : Statement (.valUnpack t o) := by cases t <;> cases o <;> rfl

theorem srst : Statement .srst := rfl

end Sys2Proof.Laws.EncodesWell
end

