-- ==== Sys2Proof/Tests/Slice0.lean ====
section
/-! SUPPORT. Tests whose expected results are the spec's (95_test_vectors.md, the vector named in each comment; 30_encoding.md),
and for every obligation with hypotheses a state and operands that meet them. -/

namespace Sys2Proof.Tests

open Sys2Proof.Machine

/-! ## Well-formedness: one ill-formed term for each check -/

/-- The fields of CRC.UPD 0x0A, a well-formed word. -/
def goodFields : Fields :=
  { op := 0x02, imm8 := 0x0A, type := 0, res19 := 0, order := 0, res22 := 0, opt := 0, res25 := 0 }

theorem test_wellFormed_good : goodFields.wellFormed = true := by decide

theorem test_wellFormed_unassigned_op : { goodFields with op := 0x05 }.wellFormed = false := by decide

theorem test_wellFormed_reserved_bits :
    { goodFields with res19 := 1 }.wellFormed = false ∧ { goodFields with res22 := 1 }.wellFormed = false ∧
      { goodFields with res25 := 1 }.wellFormed = false := by decide

theorem test_wellFormed_unused_fields :
    { goodFields with op := 0x01 }.wellFormed = false ∧ { goodFields with type := 1 }.wellFormed = false ∧
      { goodFields with order := 1 }.wellFormed = false ∧ { goodFields with opt := 1 }.wellFormed = false := by decide

theorem test_wellFormed_reserved_type :
    { goodFields with op := 0x30, imm8 := 0, type := 7 }.wellFormed = false ∧
      { goodFields with op := 0x30, imm8 := 0, type := 6, order := 3 }.wellFormed = true := by decide

/-! ## Decoding: each row's word written out bit by bit from R81 and R87, fields from bit 31 down:
res25 (7) opt (1) res22 (2) order (2) res19 (1) type (3) imm8 (8) op (8) -/

theorem test_decode_crcInit : decode 0b0000000_0_00_00_0_000_00000000_00000001 = .ok .crcInit := rfl

theorem test_decode_crcUpd : decode 0b0000000_0_00_00_0_000_10100101_00000010 = .ok (.crcUpd 0xA5) := rfl

theorem test_decode_lrcInit : decode 0b0000000_0_00_00_0_000_00000000_00000011 = .ok .lrcInit := rfl

theorem test_decode_lrcUpd : decode 0b0000000_0_00_00_0_000_10000001_00000100 = .ok (.lrcUpd 0x81) := rfl

theorem test_decode_frmTcp : decode 0b0000000_0_00_00_0_000_00000000_00010000 = .ok (.frmTcp false) ∧
    decode 0b0000000_1_00_00_0_000_00000000_00010000 = .ok (.frmTcp true) := ⟨rfl, rfl⟩

theorem test_decode_frmRtu : decode 0b0000000_0_00_00_0_000_00000000_00010001 = .ok .frmRtu := rfl

theorem test_decode_frmAsc : decode 0b0000000_0_00_00_0_000_00000000_00010010 = .ok .frmAsc := rfl

theorem test_decode_dfrTcp : decode 0b0000000_0_00_00_0_000_00000000_00011000 = .ok (.dfrTcp false) ∧
    decode 0b0000000_1_00_00_0_000_00000000_00011000 = .ok (.dfrTcp true) := ⟨rfl, rfl⟩

theorem test_decode_dfrRtu : decode 0b0000000_0_00_00_0_000_00000000_00011001 = .ok .dfrRtu := rfl

theorem test_decode_dfrAsc : decode 0b0000000_0_00_00_0_000_00000000_00011010 = .ok .dfrAsc := rfl

theorem test_decode_rxRst : decode 0b0000000_0_00_00_0_000_00000000_00100000 = .ok .rxRst := rfl

theorem test_decode_rxApp : decode 0b0000000_0_00_00_0_000_11000101_00100001 = .ok (.rxApp 0xC5) := rfl

theorem test_decode_valPack : decode 0b0000000_0_00_10_0_101_00000000_00110000 = .ok (.valPack .f64 .bews) ∧
    decode 0b0000000_0_00_01_0_011_00000000_00110000 = .ok (.valPack .i32 .le) := ⟨rfl, rfl⟩

theorem test_decode_valUnpack : decode 0b0000000_0_00_11_0_110_00000000_00110001 = .ok (.valUnpack .bool .lews) ∧
    decode 0b0000000_0_00_00_0_001_00000000_00110001 = .ok (.valUnpack .i16 .be) := ⟨rfl, rfl⟩

theorem test_decode_srst : decode 0b0000000_0_00_00_0_000_00000000_11111111 = .ok .srst := rfl

/-- The illegal words of DC1 to DC9, DC13 and DC14, each for its own reason. -/
theorem test_decode_illegal :
    ([0x00000000, 0x00000005, 0x00000013, 0x0000001B, 0x00000022, 0x00000032, 0x000000FE].all fun w =>
        decide (illegalReason (fieldsOf w) = .unassignedOp) && (decodeTableWord 32 w.toNat).isNone) = true ∧
      ([0x00080030, 0x00400030, 0x02000010, 0x00000112, 0x00010002, 0x01000021, 0x010000FF, 0xFFFFFFFF].all fun w =>
        decide (illegalReason (fieldsOf w) = .nonzeroField) && (decodeTableWord 32 w.toNat).isNone) = true ∧
      decode 0x00370031 = .error .reservedType := by decide

theorem test_encode_words : encode (.valUnpack .f64 .le) = 0x00150031 ∧ encode (.rxApp 0xC5) = 0x0000C521 ∧
    encode (.dfrTcp true) = 0x01000018 := by decide

/-! ## One step each: the state before, the word the engine completes, what is after -/

/-- The state an outcome goes on with. -/
def after (o : Host.Outcome State Fault Refusal) : Option State :=
  match o with
  | .next t => some t
  | .fault _ => none
  | .refused _ => none

/-- The fault an outcome stops with. -/
def faultOf (o : Host.Outcome State Fault Refusal) : Option Fault :=
  match o with
  | .next _ => none
  | .fault f => some f
  | .refused _ => none

/-- The completion of word `w` on `s`. -/
def run (s : State) (w : Nat) : Option State := after (step (s.withFetchWord 32 w))

/-- B[0..n). -/
def bytes (s : State) (b : Buffer) (n : Nat) : List (Option Byte) := (List.range n).map (byteOf s b)

/-- Reset with a unit id and a PDU loaded. -/
def withPdu (u : Byte) (p : List Byte) : State :=
  { bufWrites State.reset .pbuf 0 p with unit := u, plen := BitVec.ofNat 9 p.length }

/-- Reset with a frame loaded. -/
def withFrame (f : List Byte) : State := putFrame State.reset f

/-- PDU A of 95_test_vectors.md. -/
def pduA : List Byte := [0x03, 0x00, 0x00, 0x00, 0x0A]

/-- The RTU frame of E1. -/
def frameE1 : List Byte := [0x01, 0x03, 0x00, 0x00, 0x00, 0x0A, 0xC5, 0xCD]

/-- The TCP frame of DT1. -/
def frameDT1 : List Byte := [0x00, 0x01, 0x00, 0x00, 0x00, 0x06, 0x01, 0x03, 0x00, 0x00, 0x00, 0x0A]

/-- The ASCII frame of FA1: ':01030000000AF2' CR LF. -/
def frameFA1 : List Byte :=
  [0x3A, 0x30, 0x31, 0x30, 0x33, 0x30, 0x30, 0x30, 0x30, 0x30, 0x30, 0x30, 0x41, 0x46, 0x32, 0x0D, 0x0A]

/-- Every row's `match` word (R87) decodes, and the first step after reset with it placed completes it. -/
theorem test_every_row_runs :
    ([0x01, 0x02, 0x03, 0x04, 0x10, 0x11, 0x12, 0x18, 0x19, 0x1A, 0x20, 0x21, 0x30, 0x31, 0xFF].all fun w =>
      (decodeTableWord 32 w).isSome && (run State.reset w).isSome) = true := by decide

/-- CK1, CK2, CK3. -/
theorem test_crcByte : crcByte 0xFFFF 0x80 = 0xE0BE ∧ crcByte 0x0000 0xFF = 0x4040 ∧ crcByte 0x1234 0x56 = 0xE993 := by
  decide

/-- CK5 and CK11. -/
theorem test_crc16_and_lrc : crc16 [0x31, 0x32, 0x33, 0x34, 0x35, 0x36, 0x37, 0x38, 0x39] = 0x4B37 ∧
    lrcSum [0x11, 0x03, 0x00, 0x6B, 0x00, 0x03] = 0x82 ∧ lrc [0x11, 0x03, 0x00, 0x6B, 0x00, 0x03] = 0x7E := by
  decide +kernel

/-- CA1. -/
theorem test_crcInit : (run { State.reset with crc := 0x1234 } 0x00000001).map (fun t => (t.crc, t.errcode, t.busy)) =
    some (0xFFFF, .ok, false) := by decide

/-- CA2. -/
theorem test_crcUpd : (run State.reset 0x00000102).map State.crc = some 0x807E := by decide

/-- CA7. -/
theorem test_lrcInit : (run { State.reset with sum := 0x0E } 0x00000003).map (fun t => (t.sum, lrcWord t)) =
    some (0x00, 0x00000000) := by decide

/-- CA9: the sum wraps. -/
theorem test_lrcUpd_wraps : (run { State.reset with sum := 0xFF } 0x00000104).map (fun t => (t.sum, lrcWord t)) =
    some (0x00, 0x00000000) := by decide

/-- FT3: the transaction id wraps. -/
theorem test_frmTcp_inc_wraps : (run { withPdu 0x01 pduA with tid := 0xFFFF } 0x01000010).map
    (fun t => (t.tid, t.flen, bytes t .fbuf 13)) = some (0x0000, 12,
      [some 0x00, some 0x00, some 0x00, some 0x00, some 0x00, some 0x06, some 0x01, some 0x03, some 0x00, some 0x00,
        some 0x00, some 0x0A, none]) := by decide

/-- FT6: a failed FRM.TCP.INC leaves TID. -/
theorem test_frmTcp_refuses_unit : (run { withPdu 0xF8 pduA with tid := 0x0007 } 0x01000010).map
    (fun t => (t.tid, t.errcode)) = some (0x0007, .valUnit) := by decide

/-- FR1. -/
theorem test_frmRtu : (run (withPdu 0x01 pduA) 0x00000011).map (fun t => (t.flen, t.crc, bytes t .fbuf 8)) =
    some (8, 0xCDC5, frameE1.map some) := by decide +kernel

/-- FR10: an unwritten PDU byte is a model fault. -/
theorem test_frmRtu_unwritten :
    faultOf (step (State.withFetchWord { State.reset with unit := 0x01, plen := 5 } 32 0x00000011)) =
      some (.unwrittenRead .pbuf 0) := by decide

/-- FA1. -/
theorem test_frmAsc : (run (withPdu 0x01 pduA) 0x00000012).map (fun t => (t.flen, lrcWord t, bytes t .fbuf 17)) =
    some (17, 0x0000F20E, frameFA1.map some) := by decide +kernel

/-- DT3: without .CHK the transaction id is loaded. -/
theorem test_dfrTcp : (run { withFrame frameDT1 with tid := 0x0055 } 0x00000018).map
    (fun t => (t.tid, t.unit, t.plen, bytes t .pbuf 5)) = some (0x0001, 0x01, 5, pduA.map some) := by decide +kernel

/-- DT2: with .CHK it is compared; STATUS reads 0x92. -/
theorem test_dfrTcp_chk : (run { withFrame frameDT1 with tid := 0x0002 } 0x01000018).map
    (fun t => (statusWord t, t.tid)) = some (0x00000092, 0x0002) := by decide +kernel

/-- DR8: a trailing zero byte leaves the residue zero. -/
theorem test_dfrRtu_trailing_zero : (run (withFrame (frameE1 ++ [0x00])) 0x00000019).map
    (fun t => (t.errcode, t.plen, t.crc)) = some (.ok, 6, 0x00CD) := by decide +kernel

/-- DR9: the CRC is checked before the unit id. -/
theorem test_dfrRtu_order : (run (withFrame ([0xF8] ++ frameE1.drop 1)) 0x00000019).map State.errcode =
    some .frmChecksum := by decide +kernel

/-- DA1. -/
theorem test_dfrAsc : (run (withFrame frameFA1) 0x0000001A).map (fun t => (t.unit, t.plen, t.sum, bytes t .pbuf 5)) =
    some (0x01, 5, 0x0E, pduA.map some) := by decide +kernel

/-- DA6: a second ':' is no hex digit. -/
theorem test_dfrAsc_hex : (run (withFrame (frameFA1.set 5 0x3A)) 0x0000001A).map State.errcode = some .frmHex := by
  decide +kernel

/-- RX1. -/
theorem test_rxRst : (run { State.reset with flen := 5, crc := 0x8419 } 0x00000020).map (fun t => (t.flen, t.crc)) =
    some (0, 0xFFFF) := by decide

/-- RX4. -/
theorem test_rxApp : (run { State.reset with flen := 512 } 0x00000521).map (fun t => (t.flen, byteOf t .fbuf 512)) =
    some (513, some 0x05) := by decide

/-- RX5: STATUS reads 0xC2. -/
theorem test_rxApp_overflow : (run { State.reset with flen := 513 } 0x00000521).map (fun t => (t.flen, statusWord t)) =
    some (513, 0x000000C2) := by decide

/-- BO16: two words packed, two left alone. -/
theorem test_valPack : (run { State.reset with val := 0xDEADBEEF, w0 := 1, w1 := 2, w2 := 3, w3 := 4 } 0x00120030).map
    (fun t => (words t, t.wcnt)) = some ([0xEFBE, 0xADDE, 0x0003, 0x0004], 2) := by decide

/-- BO3, LEWS. -/
theorem test_valPack_f64 : (run { State.reset with val := 0x0102030405060708 } 0x00350030).map words =
    some [0x0201, 0x0403, 0x0605, 0x0807] := by decide

/-- BU4: sign extension. -/
theorem test_valUnpack : (run { State.reset with w0 := 0x5678, w1 := 0x8234, wcnt := 2 } 0x00230031).map State.val =
    some 0xFFFFFFFF82345678 := by decide

/-- BU11: the count is checked before the value. -/
theorem test_valUnpack_order : (run { State.reset with w0 := 0x0002, wcnt := 2 } 0x00060031).map State.errcode =
    some .codWcnt := by decide

/-- SR1: the registers are reset, the buffers are not. -/
theorem test_srst : (run { withFrame frameE1 with tid := 0x0042, crc := 0x0000, val := 5, w0 := 7, wcnt := 1 } 0x000000FF).map
    (fun t => (t.cmdlatch, t.crc, words t, bytes t .fbuf 8)) =
      some (0x00000000, 0xFFFF, [0, 0, 0, 0], frameE1.map some) := by decide

/-- SR2: an illegal word resets nothing. -/
theorem test_illegal : (run { State.reset with tid := 0x0042 } 0x000001FF).map (fun t => (t.tid, statusWord t)) =
    some (0x0042, 0x00000012) := by decide

/-! ## The host -/

/-- HA11: nine bits of PLEN are stored. -/
theorem test_host_plen : readReg (writeReg State.reset .plen 0xFFFFFFFF) .plen = 0x000001FF := by decide

/-- HA3 to HA7, HA9: bus errors. -/
theorem test_host_bus_errors :
    ([.rd 0x034, .rd 0x006, .rdb 0x008, .wr 0x400 0, .rdb 0x4FD, .rdb 0xA01] : List HostOp).map
        (fun op => faultOf (hostIdle op State.reset)) =
      [some (.busError 0x034), some (.busError 0x006), some (.busError 0x008), some (.busError 0x400),
        some (.busError 0x4FD), some (.busError 0xA01)] := by decide

/-- HA8: FBUF[512] is the last byte. -/
theorem test_host_byte : (after (hostIdle (.wrb 0xA00 5) State.reset)).bind (fun s => after (hostIdle (.rdb 0xA00) s)) =
    some { State.reset with mem := [(0xA00, 5)], reads := [5] } := by decide

/-- HA12 and HA13. -/
theorem test_host_busy :
    faultOf (hostBusy (.wr 0x010 1) { State.reset with busy := true, wait := 1 }) = some (.busyViolation 0x010) ∧
      (after (step { State.reset with busy := true, wait := 1, host := [.rd 0x004] })).map State.reads =
        some [0x00000001] := by decide

/-- R96: a WAIT reads STATUS in each step of it, until BUSY reads 0. -/
theorem test_host_wait :
    (after (hostBusy .wait { State.reset with busy := true, wait := 1, host := [.wait] })).map
        (fun t => (t.reads, t.host, t.wait)) = some ([0x00000001], [.wait], 0) ∧
      (after (step { State.reset with host := [.wait] })).map (fun t => (t.reads, t.host)) =
        some ([0x00000000], []) := by decide

/-! ## Witnesses: for each obligation with hypotheses, values that meet them, at the ends of their ranges -/

/-- 253 bytes, the longest PDU. -/
def longPdu : List Byte := List.replicate 253 0x5A

theorem length_longPdu : longPdu.length = 253 := List.length_replicate

theorem canSend_withPdu {u : Byte} {p : List Byte} (h1 : 1 ≤ p.length) (h2 : p.length ≤ 253) (hu : u.toNat ≤ 247) :
    CanSend (withPdu u p) p := by
  have hl : (withPdu u p).plen.toNat = p.length := by simp [withPdu]; omega
  exact ⟨⟨hl.symm, starts_bufWrites State.reset .pbuf p⟩, by omega, by omega, hu⟩

theorem isFrame_withFrame {f : List Byte} (h : f.length < 1024) : IsFrame (withFrame f) f :=
  isFrame_of_mem (s := State.reset) rfl rfl h

theorem witness_EncodeOfDecodeIsTheWord : decode 0x00360031 = .ok (.valUnpack .bool .lews) ∧
    decode 0x0000FF02 = .ok (.crcUpd 0xFF) ∧ decode 0x010000FF = .error .nonzeroField := ⟨rfl, rfl, rfl⟩

theorem witness_IllegalWordsReportAndChangeNothing : ∃ s : State, s.busy = true ∧ s.wait = 0 ∧
    (fieldsOf s.cmdlatch).wellFormed = false ∧ (fieldsOf 0x00360031).wellFormed = true :=
  ⟨withCommand State.reset 0x00370031, by decide⟩

theorem witness_StepRunsTheDecodedCommand :
    (∃ s : State, s.busy = true ∧ s.wait = 0 ∧ decode s.cmdlatch = .ok .srst) ∧
      decode (BitVec.ofNat 32 0x0000C521) = .ok (.rxApp 0xC5) :=
  ⟨⟨withCommand State.reset 0x000000FF, rfl, rfl, rfl⟩, rfl⟩

theorem witness_PowerOnResetGivesResetState :
    (∃ s : State, s.host = [.powerOnReset] ∧ s.busy = false) ∧
      ∃ s : State, s.host = [.powerOnReset] ∧ s.busy = true ∧ 0 < s.wait :=
  ⟨⟨{ State.reset with host := [.powerOnReset] }, by decide⟩,
    ⟨{ State.reset with host := [.powerOnReset], busy := true, wait := 1 }, by decide⟩⟩

theorem witness_IdleBlockKeepsItsState : State.reset.busy = false ∧ State.reset.wait = 0 ∧ State.reset.host = [] := by
  decide

/-- A state that is idle, and one in which a command is in progress, both with bytes listed. -/
theorem witness_EveryStepKeepsTheInvariant :
    (Inv (withFrame frameE1) ∧ (after (step (withFrame frameE1))).isSome = true) ∧
      Inv (withCommand (withFrame frameE1) 0x00000019) ∧
      (after (step (withCommand (withFrame frameE1) 0x00000019))).isSome = true :=
  ⟨⟨⟨by decide, by decide, fun _ => rfl, fun _ => rfl⟩, by decide⟩,
    ⟨by decide, by decide, fun _ => rfl, fun _ => rfl⟩, by decide +kernel⟩

theorem witness_CrcDetectsEverySingleByteError : (0x00 : Byte) ≠ 0x01 := by decide

/-- For the three frame commands and the round trip: the shortest and the longest PDU, the lowest and the highest unit id. -/
theorem witness_CanSend : CanSend (withPdu 0xF7 [0x01]) [0x01] ∧ CanSend (withPdu 0x00 longPdu) longPdu :=
  ⟨canSend_withPdu (by decide) (by decide) (by decide),
    canSend_withPdu (by rw [length_longPdu]; decide) (by rw [length_longPdu]) (by decide)⟩

/-- Length 0 and 254; unit id 248; a first and a last byte unwritten. -/
theorem witness_FrameCommandsCheckLengthThenUnit :
    State.reset.plen.toNat = 0 ∧ { State.reset with plen := 254 }.plen.toNat = 254 ∧
      ((withPdu 0xF8 [0x01]).plen.toNat = 1 ∧ (withPdu 0xF8 [0x01]).unit.toNat = 248) ∧
      byteOf { State.reset with plen := 1 } .pbuf 0 = none ∧
      byteOf { withPdu 0x00 [0x08] with plen := 2 } .pbuf 1 = none ∧
      ∀ k, k < 1 → byteOf { withPdu 0x00 [0x08] with plen := 2 } .pbuf k ≠ none := by decide

/-- A TCP frame of 260 bytes. -/
def longTcp : List Byte := mbapFrame 0x1234 0xF7 longPdu

theorem length_longTcp : longTcp.length = 260 := by rw [longTcp, length_mbapFrame, length_longPdu]

theorem witness_DfrTcpAcceptsAValidFrame :
    (IsFrame (withFrame [0x12, 0x34, 0x00, 0x00, 0x00, 0x02, 0x00, 0x08]) [0x12, 0x34, 0x00, 0x00, 0x00, 0x02, 0x00, 0x08] ∧
        256 * (0x00 : Byte).toNat + (0x02 : Byte).toNat = 8 - 6) ∧
      IsFrame (withFrame longTcp) longTcp ∧ longTcp.length = 260 ∧ byteAt longTcp 2 = 0 ∧ byteAt longTcp 3 = 0 ∧
      256 * (byteAt longTcp 4).toNat + (byteAt longTcp 5).toNat = longTcp.length - 6 ∧ (byteAt longTcp 6).toNat ≤ 247 ∧
      be16 (byteAt longTcp 0) (byteAt longTcp 1) = { withFrame longTcp with tid := 0x1234 }.tid := by
  have h4 : byteAt longTcp 4 = hi8 (BitVec.ofNat 16 (longPdu.length + 1)) := rfl
  have h5 : byteAt longTcp 5 = lo8 (BitVec.ofNat 16 (longPdu.length + 1)) := rfl
  refine ⟨⟨isFrame_withFrame (by decide), by decide⟩, isFrame_withFrame (by rw [length_longTcp]; decide), length_longTcp,
    rfl, rfl, ?_, ?_, ?_⟩
  · rw [h4, h5, length_longTcp, length_longPdu]; decide
  · show (0xF7 : Byte).toNat ≤ 247; decide
  · show be16 (hi8 0x1234) (lo8 0x1234) = 0x1234; decide

theorem witness_DfrTcpRefusesInOrder :
    (State.reset.flen.toNat < 8 ∧ 260 < { State.reset with flen := 261 }.flen.toNat) ∧
      (∀ f ∈ [frameDT1.set 2 0x01, frameDT1.set 3 0x01, frameDT1.set 5 0x07, frameDT1.set 6 0xF8, frameDT1],
        IsFrame (withFrame f) f ∧ 8 ≤ f.length ∧ f.length ≤ 260) ∧
      byteAt (frameDT1.set 2 0x01) 2 ≠ 0 ∧ byteAt (frameDT1.set 3 0x01) 3 ≠ 0 ∧
      256 * (byteAt (frameDT1.set 5 0x07) 4).toNat + (byteAt (frameDT1.set 5 0x07) 5).toNat ≠ 12 - 6 ∧
      248 ≤ (byteAt (frameDT1.set 6 0xF8) 6).toNat ∧ be16 (byteAt frameDT1 0) (byteAt frameDT1 1) ≠ (withFrame frameDT1).tid :=
  ⟨by decide, fun f hf => by
    have h : f.length < 1024 ∧ 8 ≤ f.length ∧ f.length ≤ 260 := by
      revert f; decide
    exact ⟨isFrame_withFrame h.1, h.2⟩, by decide⟩

/-- An RTU frame of 256 bytes. -/
def longRtu : List Byte := rtuFrame 0xF7 longPdu

theorem length_longRtu : longRtu.length = 256 := by rw [longRtu, length_rtuFrame, length_longPdu]

theorem witness_DfrRtuAcceptsAValidFrame :
    ∀ f ∈ [[0x00, 0x08, 0x00, 0x76], frameE1, longRtu], IsFrame (withFrame f) f ∧ 4 ≤ f.length ∧ f.length ≤ 256 ∧
      lo8 (crc16 (f.take (f.length - 2))) = byteAt f (f.length - 2) ∧
      hi8 (crc16 (f.take (f.length - 2))) = byteAt f (f.length - 1) ∧ (byteAt f 0).toNat ≤ 247 := by
  intro f hf
  simp only [List.mem_cons, List.not_mem_nil, or_false] at hf
  rcases hf with rfl | rfl | rfl
  · exact ⟨isFrame_withFrame (by decide), by decide +kernel⟩
  · exact ⟨isFrame_withFrame (by decide), by decide +kernel⟩
  · have ht : longRtu.take 254 = 0xF7 :: longPdu := by
      have := take_rtuFrame 0xF7 longPdu
      rwa [length_longPdu] at this
    have he := byteAt_rtuFrame_end 0xF7 longPdu
    rw [length_longPdu] at he
    refine ⟨isFrame_withFrame (by rw [length_longRtu]; decide), by rw [length_longRtu]; decide, by rw [length_longRtu], ?_, ?_,
      ?_⟩
    · rw [length_longRtu, ht]; exact he.1.symm
    · rw [length_longRtu, ht]; exact he.2.symm
    · show (0xF7 : Byte).toNat ≤ 247; decide

/-- Lengths 3 and 257; a wrong low and a wrong high CRC byte; DR5. -/
theorem witness_DfrRtuRefusesInOrder :
    (State.reset.flen.toNat < 4 ∧ 256 < { State.reset with flen := 257 }.flen.toNat) ∧
      (∀ f ∈ [frameE1.set 6 0xC4, frameE1.set 7 0xCC, [0xF8, 0x03, 0x00, 0x00, 0x00, 0x0A, 0xD1, 0xA4]],
        IsFrame (withFrame f) f ∧ 4 ≤ f.length ∧ f.length ≤ 256) ∧
      crc16 (frameE1.take 6) = 0xCDC5 ∧ crc16 [0xF8, 0x03, 0x00, 0x00, 0x00, 0x0A] = 0xA4D1 :=
  ⟨by decide, fun f hf => by
    have h : f.length < 1024 ∧ 4 ≤ f.length ∧ f.length ≤ 256 := by revert f; decide
    exact ⟨isFrame_withFrame h.1, h.2⟩, by decide +kernel, by decide +kernel⟩

/-- An ASCII frame of 513 bytes, and its 255 raw bytes. -/
def longAsc : List Byte := ascFrame 0xF7 longPdu

theorem length_longAsc : longAsc.length = 513 := by rw [longAsc, length_ascFrame, length_longPdu]

/-- What DFR.ASC asks of the raw bytes `d` of a frame `f`. -/
def AscOk (f d : List Byte) : Prop :=
  3 ≤ d.length ∧ d.length ≤ 255 ∧ f.length = 2 * d.length + 3 ∧ byteAt f 0 = 0x3A ∧
    byteAt f (f.length - 2) = 0x0D ∧ byteAt f (f.length - 1) = 0x0A ∧
    (∀ j, j < d.length → hexVal (byteAt f (1 + 2 * j)) = some ((byteAt d j).extractLsb' 4 4) ∧
      hexVal (byteAt f (2 + 2 * j)) = some ((byteAt d j).extractLsb' 0 4)) ∧
    lrcSum d = 0 ∧ (byteAt d 0).toNat ≤ 247

/-- `:0001FF` CR LF of DA10, and the longest frame. -/
theorem witness_DfrAscAcceptsAValidFrame :
    (IsFrame (withFrame [0x3A, 0x30, 0x30, 0x30, 0x31, 0x46, 0x46, 0x0D, 0x0A])
        [0x3A, 0x30, 0x30, 0x30, 0x31, 0x46, 0x46, 0x0D, 0x0A] ∧
        AscOk [0x3A, 0x30, 0x30, 0x30, 0x31, 0x46, 0x46, 0x0D, 0x0A] [0x00, 0x01, 0xFF]) ∧
      IsFrame (withFrame longAsc) longAsc ∧ AscOk longAsc (ascBytes 0xF7 longPdu) ∧ longAsc.length = 513 := by
  have hd : (ascBytes 0xF7 longPdu).length = 255 := by rw [length_ascBytes, length_longPdu]
  have he := byteAt_ascFrame_end 0xF7 longPdu
  rw [length_longPdu] at he
  refine ⟨⟨isFrame_withFrame (by decide), by unfold AscOk; decide⟩, isFrame_withFrame (by rw [length_longAsc]; decide),
    ⟨by rw [hd]; decide, by rw [hd], by rw [hd, length_longAsc], rfl, ?_, ?_, fun j hj => ?_, ?_, ?_⟩, length_longAsc⟩
  · rw [length_longAsc]; exact he.1
  · rw [length_longAsc]; exact he.2
  · have hj' : j < longPdu.length + 2 := by rw [length_longPdu]; omega
    rw [longAsc, (byteAt_ascFrame _ _ j hj').1, (byteAt_ascFrame _ _ j hj').2]
    exact ⟨hexVal_hexChar _, hexVal_hexChar _⟩
  · rw [ascBytes, lrcSum_append, lrcSum_singleton, lrc]
    generalize lrcSum _ = x
    revert x; decide
  · show (0xF7 : Byte).toNat ≤ 247; decide

/-- Lengths 8 and 514; DA2, DA3 and each terminator byte; DA4; no hex digit first and last; DA7; DA8. -/
theorem witness_DfrAscRefusesInOrder :
    (State.reset.flen.toNat < 9 ∧ 513 < { State.reset with flen := 514 }.flen.toNat) ∧
      (∀ f ∈ [frameFA1.set 0 0x3B, frameFA1.set 15 0x0A, frameFA1.set 16 0x0D, frameFA1.take 15 ++ [0x46, 0x0D, 0x0A],
          frameFA1.set 1 0x3A, frameFA1.set 14 0x61, frameFA1.set 14 0x33,
          [0x3A, 0x46, 0x38, 0x30, 0x31, 0x30, 0x37, 0x0D, 0x0A]],
        IsFrame (withFrame f) f ∧ 9 ≤ f.length ∧ f.length ≤ 513) ∧
      (18 - 3) % 2 = 1 ∧ hexVal 0x3A = none ∧ hexVal 0x61 = none ∧ 14 ≤ frameFA1.length - 3 ∧
      lrcSum [0x01, 0x03, 0x00, 0x00, 0x00, 0x0A, 0xF3] ≠ 0 ∧ lrcSum [0xF8, 0x01, 0x07] = 0 :=
  ⟨by decide, fun f hf => by
    have h : f.length < 1024 ∧ 9 ≤ f.length ∧ f.length ≤ 513 := by revert f; decide
    exact ⟨isFrame_withFrame h.1, h.2⟩, by decide⟩

/-- The first and the last byte of the shortest frame of each command unwritten. -/
theorem witness_DeframeReadsTheWholeFrameFirst :
    (byteOf { State.reset with flen := 4 } .fbuf 0 = none) ∧ ∀ n ∈ [8, 4, 9],
      byteOf { withFrame (frameFA1.take (n - 1)) with flen := BitVec.ofNat 10 n } .fbuf (n - 1) = none ∧
        ∀ k, k < n - 1 → byteOf { withFrame (frameFA1.take (n - 1)) with flen := BitVec.ofNat 10 n } .fbuf k ≠ none := by
  decide

theorem witness_DfrRtuRefusesASingleCorruptedByte : IsFrame (withFrame frameE1) frameE1 ∧
    (after (exec .dfrRtu (withFrame frameE1))).map State.errcode = some .ok ∧ 7 < frameE1.length ∧
    0xCC ≠ byteAt frameE1 7 ∧ 0x00 ≠ byteAt frameE1 0 :=
  ⟨isFrame_withFrame (by decide), by decide +kernel, by decide⟩

theorem witness_RxAppAppendsOneByte : State.reset.flen.toNat = 0 ∧
    { State.reset with flen := 512 }.flen.toNat < 513 := by decide

theorem witness_RxAppOverflowsAt513 : 513 ≤ { State.reset with flen := 513 }.flen.toNat ∧
    513 ≤ { State.reset with flen := 1023 }.flen.toNat := by decide

theorem witness_ReceptionRaisesRxokOnAValidCrc :
    ([] : List Byte).length ≤ 513 ∧ (List.replicate 513 (0x00 : Byte)).length ≤ 513 :=
  ⟨by decide, by rw [List.length_replicate]⟩

/-- Each type's canonical extremes, and a value just past each (BE1 to BE5). -/
theorem witness_ValPack :
    ([(.u16, 0xFFFF), (.i16, 0x7FFF), (.i16, 0xFFFFFFFFFFFF8000), (.u32, 0xFFFFFFFF), (.i32, 0x7FFFFFFF),
        (.i32, 0xFFFFFFFF80000000), (.f32, 0xFFFFFFFF), (.f64, 0xFFFFFFFFFFFFFFFF), (.bool, 0), (.bool, 1)].all
        fun (c : ValType × BitVec 64) => canonical c.1 c.2) = true ∧
      ([(.u16, 0x10000), (.i16, 0x8000), (.i16, 0xFFFFFFFFFFFF7FFF), (.u32, 0x100000000), (.i32, 0x80000000),
        (.i32, 0xFFFFFFFF7FFFFFFF), (.f32, 0x100000000), (.bool, 2)].all
        fun (c : ValType × BitVec 64) => !canonical c.1 c.2) = true := by decide

/-- A count for each width, one for none, and a word of each kind for BOOL. -/
theorem witness_ValUnpack :
    { State.reset with wcnt := 1 }.wcnt.toNat = valWidth .u16 ∧ { State.reset with wcnt := 2 }.wcnt.toNat = valWidth .f32 ∧
      { State.reset with wcnt := 4 }.wcnt.toNat = valWidth .f64 ∧ { State.reset with wcnt := 3 }.wcnt.toNat ≠ valWidth .u32 ∧
      { State.reset with wcnt := 1, w0 := 1 }.w0 = 0x0001 ∧ { State.reset with wcnt := 1, w0 := 2 }.w0 ≠ 0x0001 := by decide

/-- For the statements about every command: one that succeeds, one that fails, one that faults. -/
theorem witness_Commands : (∃ t, exec .crcInit State.reset = .next t) ∧
    (∃ t, exec .frmRtu State.reset = .next t ∧ t.errcode ≠ .ok) ∧
    ∃ f, exec .frmRtu { State.reset with plen := 1 } = .fault f :=
  ⟨⟨_, rfl⟩, ⟨_, rfl, by decide⟩, ⟨_, rfl⟩⟩

/-- Memories that differ past PLEN and past FLEN only, with a command that completes and one that faults. -/
theorem witness_CommandsUseOnlyTheCurrentPduAndFrame :
    let s := withPdu 0x00 [0x08]
    let m := Memory.write (Memory.write s.mem 0x401 0xEE) 0xA00 0xEE
    (∀ j, j < s.plen.toNat → Memory.read m (Buffer.pbuf.addr j) = byteOf s .pbuf j) ∧
      (∀ j, j < s.flen.toNat → Memory.read m (Buffer.fbuf.addr j) = byteOf s .fbuf j) ∧ m ≠ s.mem ∧
      (after (exec .frmRtu s)).isSome = true ∧ (faultOf (exec .dfrRtu { State.reset with flen := 4 })).isSome = true := by
  decide +kernel

theorem witness_CmdWriteIssuesACommand : State.reset.busy = false ∧
    { State.reset with host := [.wr 0x000 0x00000001] }.host = .wr 0x000 0x00000001 :: [] ∧
    { State.reset with host := [.rd 0x000] }.host = .rd 0x000 :: [] := by decide

/-- A command in progress with the host at an access of each kind, at STATUS and at its neighbours. -/
theorem witness_OnlyStatusIsReadableWhileBusy :
    ∀ op ∈ ([.rd 0x004, .rd 0x000, .rd 0x008, .rd 0x005, .wr 0x004 0, .rdb 0x400, .wrb 0x800 0, .rdh 0x004, .wrh 0x004 0] :
      List HostOp), ∃ s : State, s.busy = true ∧ 0 < s.wait ∧ s.host = op :: [] :=
  fun op _ => ⟨{ State.reset with busy := true, wait := 1, host := [op] }, rfl, Nat.one_pos, rfl⟩

/-- Idle with each kind of access, at the ends of the registers and of the buffers. -/
theorem witness_HostAccessWhenIdle :
    ∀ op ∈ ([.rd 0x000, .rd 0x004, .rd 0x008, .rd 0x00C, .rd 0x010, .rd 0x014, .rd 0x018, .rd 0x01C, .rd 0x020, .rd 0x024,
        .rd 0x028, .rd 0x02C, .rd 0x030, .rd 0x034, .rd 0x002, .wr 0x004 1, .wr 0x020 1, .wr 0x024 1, .wr 0x030 1, .wr 0x034 1, .wr 0x400 1, .rdh 0x010, .wrh 0x010 1,
        .rdb 0x400, .wrb 0x4FC 1, .rdb 0x4FD, .wrb 0x7FF 1, .wrb 0x800 1, .rdb 0xA00, .wrb 0xA01 1, .rdb 0x004] :
      List HostOp), ∃ s : State, s.busy = false ∧ s.host = op :: [] :=
  fun op _ => ⟨{ State.reset with host := [op] }, rfl, rfl⟩

/-- A buffer byte that is written and one that is not. -/
theorem witness_BuffersTakeByteAccesses :
    Memory.read (withFrame frameE1).mem (0x800 : Offset).toNat = some 0x01 ∧
      Memory.read (withFrame frameE1).mem (0xA00 : Offset).toNat = none := by decide

theorem witness_NothingChangesBeforeCompletion :
    ∃ s t : State, s.busy = true ∧ 0 < s.wait ∧ s.host.head? ≠ some .powerOnReset ∧ step s = .next t :=
  ⟨{ State.reset with busy := true, wait := 1, host := [.rd 0x004] }, _, rfl, by decide, by decide, rfl⟩

theorem witness_WaitingHostSeesTheCompletion :
    (∃ s : State, s.busy = true ∧ s.wait = 0 ∧ s.host = .wait :: []) ∧
      (∃ s : State, s.busy = true ∧ s.wait = 2 ∧ s.host = .wait :: []) ∧
      ∃ s : State, s.busy = false ∧ s.host = .wait :: [] :=
  ⟨⟨{ State.reset with busy := true, host := [.wait] }, rfl, rfl, rfl⟩,
    ⟨{ State.reset with busy := true, wait := 2, host := [.wait] }, rfl, rfl, rfl⟩,
    ⟨{ State.reset with host := [.wait] }, rfl, rfl⟩⟩

theorem witness_LoadPduLoadsThePdu :
    (∃ s : State, s.busy = false ∧ s.host = loadPdu 0x01 pduA ++ []) ∧ longPdu.length = 253 ∧
      ∃ s : State, s.busy = false ∧ s.host = loadPdu 0xFF longPdu ++ [.wait] :=
  ⟨⟨{ State.reset with host := loadPdu 0x01 pduA ++ [] }, rfl, rfl⟩, length_longPdu,
    ⟨{ State.reset with host := loadPdu 0xFF longPdu ++ [.wait] }, rfl, rfl⟩⟩

end Sys2Proof.Tests
end

section
/-! The host's writes as steps of an idle block (R62, R63), and its pseudo-operations that load a buffer (R96) as runs. -/

namespace Sys2Proof.Machine

/-! The window's map, from what an access is meant for to what it reaches (R20, R61). -/

@[simp] theorem Reg.ofOffset_offset (r : Reg) : Reg.ofOffset r.offset = some r := by cases r <;> rfl

theorem Buffer.toNat_offset (b : Buffer) {i : Nat} (h : i < b.size) : (BitVec.ofNat 12 (b.addr i)).toNat = b.addr i := by
  rw [BitVec.toNat_ofNat]
  refine Nat.mod_eq_of_lt ?_
  cases b <;> simp only [Buffer.size, Buffer.addr, Buffer.base, Config.pbufSize, Config.fbufSize] at h ⊢ <;> omega

theorem Buffer.ofOffset_addr (b : Buffer) {i : Nat} (h : i < b.size) :
    Buffer.ofOffset (BitVec.ofNat 12 (b.addr i)) = some (b, i) := by
  have hin : b.holds (b.addr i) = true := (holds_iff b _).2 (by simp only [Buffer.addr]; omega)
  unfold Buffer.ofOffset
  rw [b.toNat_offset h]
  cases b with
  | pbuf =>
    rw [if_pos hin]
    simp [Buffer.addr]
  | fbuf =>
    have hout : ¬Buffer.pbuf.holds (Buffer.fbuf.addr i) = true := by
      simp only [holds_iff, Buffer.addr, Buffer.base, Buffer.size, Config.pbufSize]
      omega
    rw [if_neg hout, if_pos hin]
    simp [Buffer.addr]

/-! The two registers of a PDU (R28, R30), as LOADPDU writes them. -/

theorem writeReg_unit (s : State) (u : Byte) : writeReg s .unit (u.setWidth 32) = { s with unit := u } := by
  simp [writeReg]

theorem writeReg_plen (s : State) (n : Nat) :
    writeReg s .plen (BitVec.ofNat 32 n) = { s with plen := BitVec.ofNat 9 n } := by
  simp [writeReg, BitVec.setWidth_ofNat_of_le]

/-! One step of an idle block whose host writes. -/

theorem step_idle {s : State} {op : HostOp} {rest : List HostOp} (h : s.host = op :: rest) (hb : s.busy = false) :
    step s = hostIdle op (popHost s) := by
  rw [step_host (engineReady_of_not_busy hb), hostStep_idle h hb]

theorem step_wr {s : State} {r : Reg} {v : Word32} {rest : List HostOp} (h : s.host = .wr r.offset v :: rest)
    (hb : s.busy = false) : step s = .next (writeReg (popHost s) r v) := by
  simp [step_idle h hb, hostIdle, hostWrite]

theorem step_wrb {s : State} {b : Buffer} {i : Nat} {v : Byte} {rest : List HostOp} (hi : i < b.size)
    (h : s.host = .wrb (BitVec.ofNat 12 (b.addr i)) v :: rest) (hb : s.busy = false) :
    step s = .next (bufWrites (popHost s) b i [v]) := by
  simp [step_idle h hb, hostIdle, hostWriteByte, b.ofOffset_addr hi]

/-! Runs of pseudo-operations. -/

/-- The byte writes of a sequence, one step each, lay it into the buffer; the run goes on with the host's next operation. -/
theorem run_wrbAll (b : Buffer) (rest : List HostOp) (n : Nat) (vs : List Byte) (i : Nat) (s : State)
    (hi : i + vs.length ≤ b.size) (hb : s.busy = false) (h : s.host = wrbAll b i vs ++ rest) :
    core.run (vs.length + n) s = core.run n { bufWrites s b i vs with host := rest } := by
  induction vs generalizing i s with
  | nil =>
    have hs : s = { bufWrites s b i [] with host := rest } := by
      rw [show rest = s.host from h.symm]; rfl
    rw [← hs, List.length_nil, Nat.zero_add]
  | cons v vs ih =>
    simp only [List.length_cons] at hi
    have hstep := step_wrb (i := i) (by omega) h hb
    have hlen : (v :: vs).length + n = (vs.length + n) + 1 := by simp only [List.length_cons]; omega
    rw [hlen, run_succ_next hstep, ih (i + 1) (bufWrites (popHost s) b i [v]) (by omega) hb
      (by simp [h, wrbAll])]
    rfl

/-- LOADPDU leaves the block as an accepted frame's unit id and PDU would (`commitRx`, R150). -/
theorem run_loadPdu {s : State} {u : Byte} {bs : List Byte} {rest : List HostOp} (hb : s.busy = false)
    (hl : bs.length ≤ 253) (h : s.host = loadPdu u bs ++ rest) :
    core.run (bs.length + 2) s = .next { commitRx s u bs with host := rest } := by
  have hunit : step s = .next { popHost s with unit := u } := by
    rw [step_wr (r := .unit) h hb, writeReg_unit]
  have hbytes := run_wrbAll .pbuf (.wr Reg.plen.offset (BitVec.ofNat 32 bs.length) :: rest) 1 bs 0
    { popHost s with unit := u } (by rw [Nat.zero_add]; exact hl) hb (by simp [h, loadPdu])
  rw [run_succ_next hunit, hbytes, run_one]
  exact (step_wr (r := .plen) rfl (by exact hb)).trans (congrArg Host.Outcome.next (writeReg_plen _ _))

/-! The obligation. -/

/-- Settles O59: the run of LOADPDU ends in `commitRx`'s state, and what that holds is `pdu_of_mem`. -/
theorem loadPduLoadsThePdu : Obligations.LoadPduLoadsThePdu := by
  unfold Obligations.LoadPduLoadsThePdu
  intro s u bs rest hb hl h
  obtain ⟨hplen, hbytes, hframe⟩ :=
    pdu_of_mem (s := s) (t := { commitRx s u bs with host := rest }) (q := bs) rfl rfl hl
  exact ⟨_, run_loadPdu hb hl h, rfl, ⟨hplen.symm, hbytes⟩, hplen, hframe⟩

end Sys2Proof.Machine
end

section
/-! What the effects of a command can be, said once for all commands: the fields a rule leaves alone, the registers it
may write and the one buffer it stores to (R26 to R36, R130, R193). From these: the invariant (R24, R66), and the two frame
rules. -/

namespace Sys2Proof.Machine

/-! The buffer a command stores to. -/

/-- The buffer whose bytes a command may change (R130, R150, R171): none for a command that stores no byte. -/
def storesBuffer : Instr → Option Buffer
  | .frmTcp _ | .frmRtu | .frmAsc | .rxApp _ => some .fbuf
  | .dfrTcp _ | .dfrRtu | .dfrAsc => some .pbuf
  | .crcInit | .crcUpd _ | .lrcInit | .lrcUpd _ | .rxRst | .valPack _ _ | .valUnpack _ _ | .srst => none

/-- `n` is `m` with bytes stored inside buffer `b` (R66). -/
def StoredIn (b : Buffer) (m n : List Host.Cell) : Prop :=
  ∃ j v, j + v.length ≤ b.size ∧ n = Memory.writeBytes m (b.addr j) v

theorem StoredIn.wf {b : Buffer} {m n : List Host.Cell} (h : StoredIn b m n) (hm : Memory.wf m = true) :
    Memory.wf n = true := by
  obtain ⟨j, v, -, rfl⟩ := h
  exact Memory.writeBytes_wf v m _ hm

theorem StoredIn.inBuffers {b : Buffer} {m n : List Host.Cell} (h : StoredIn b m n) (hm : inBuffers m = true) :
    inBuffers n = true := by
  obtain ⟨j, v, hl, rfl⟩ := h
  exact inBuffers_writeBytes v m b j hm hl

theorem StoredIn.read_outside {b : Buffer} {m n : List Host.Cell} (h : StoredIn b m n) {a : Nat}
    (ha : b.holds a = false) : Memory.read n a = Memory.read m a := by
  obtain ⟨j, v, hl, rfl⟩ := h
  have hout : ¬(b.addr 0 ≤ a ∧ a < b.addr b.size) := by rw [← holds_iff, ha]; exact Bool.false_ne_true
  rw [Memory.read_writeBytes, if_neg]
  simp only [Buffer.addr] at hout ⊢
  omega

/-- A frame laid into FBUF lies in it when it is no longer than FBUF (R36, R130). -/
theorem storedIn_putFrame (s : State) {f : List Byte} (h : f.length ≤ 513) :
    StoredIn .fbuf s.mem (putFrame s f).mem :=
  ⟨0, f, by simpa [Buffer.size, Config.fbufSize] using h, rfl⟩

/-- An accepted PDU lies in PBUF when it is no longer than PBUF (R35, R150). -/
theorem storedIn_commitRx (s : State) (u : Byte) {q : List Byte} (h : q.length ≤ 253) :
    StoredIn .pbuf s.mem (commitRx s u q).mem :=
  ⟨0, q, by simpa [Buffer.size, Config.pbufSize] using h, rfl⟩

theorem CanSend.length_le {s : State} {p : List Byte} (h : CanSend s p) : p.length ≤ 253 := by
  obtain ⟨⟨hl, -⟩, -, hmax, -⟩ := h
  omega

/-! What a rule that ran can have changed. -/

/-- Field by field: a rule writes the registers its command lists, and memory; of the commands only SRST's rule writes
CMDLATCH (R38, log 14), and none writes STATUS or the host's side. -/
theorem ran_fields {i : Instr} {s u : State} (h : Ran i s u) : u = { s with
    cmdlatch := if i = .srst then 0x00000000 else s.cmdlatch
    crc := if .crc ∈ mayWrite i then u.crc else s.crc
    sum := if .lrc ∈ mayWrite i then u.sum else s.sum
    unit := if .unit ∈ mayWrite i then u.unit else s.unit
    tid := if .tid ∈ mayWrite i then u.tid else s.tid
    plen := if .plen ∈ mayWrite i then u.plen else s.plen
    flen := if .flen ∈ mayWrite i then u.flen else s.flen
    val := if .valLo ∈ mayWrite i ∧ .valHi ∈ mayWrite i then u.val else s.val
    w0 := if .w01 ∈ mayWrite i then u.w0 else s.w0
    w1 := if .w01 ∈ mayWrite i then u.w1 else s.w1
    w2 := if .w23 ∈ mayWrite i then u.w2 else s.w2
    w3 := if .w23 ∈ mayWrite i then u.w3 else s.w3
    wcnt := if .wcnt ∈ mayWrite i then u.wcnt else s.wcnt
    mem := u.mem } := by
  cases i <;> simp only [Ran] at h
  case crcInit | crcUpd | lrcInit | lrcUpd | rxRst | srst => subst h; rfl
  case frmTcp inc => obtain ⟨p, -, rfl⟩ := h; cases inc <;> rfl
  case frmRtu | frmAsc => obtain ⟨p, -, rfl⟩ := h; rfl
  case dfrTcp | dfrRtu => obtain ⟨f, -, -, -, rfl⟩ := h; rfl
  case dfrAsc => obtain ⟨f, d, -, -, -, -, rfl⟩ := h; rfl
  case rxApp | valPack => obtain ⟨-, rfl⟩ := h; rfl
  case valUnpack => obtain ⟨-, v, -, rfl⟩ := h; rfl

/-- A rule stores bytes inside its command's buffer, or stores none. -/
theorem ran_mem {i : Instr} {s u : State} (h : Ran i s u) :
    (∃ b, storesBuffer i = some b ∧ StoredIn b s.mem u.mem) ∨ storesBuffer i = none ∧ u.mem = s.mem := by
  cases i <;> simp only [Ran] at h
  case crcInit | crcUpd | lrcInit | lrcUpd | rxRst | srst => subst h; exact .inr ⟨rfl, rfl⟩
  case valPack => obtain ⟨-, rfl⟩ := h; exact .inr ⟨rfl, rfl⟩
  case valUnpack => obtain ⟨-, v, -, rfl⟩ := h; exact .inr ⟨rfl, rfl⟩
  case frmTcp =>
    obtain ⟨p, hp, rfl⟩ := h
    exact .inl ⟨.fbuf, rfl, storedIn_putFrame s (by rw [length_mbapFrame]; have := hp.length_le; omega)⟩
  case frmRtu =>
    obtain ⟨p, hp, rfl⟩ := h
    exact .inl ⟨.fbuf, rfl, storedIn_putFrame s (by rw [length_rtuFrame]; have := hp.length_le; omega)⟩
  case frmAsc =>
    obtain ⟨p, hp, rfl⟩ := h
    exact .inl ⟨.fbuf, rfl, storedIn_putFrame s (by rw [length_ascFrame]; have := hp.length_le; omega)⟩
  case dfrTcp =>
    obtain ⟨f, -, -, hmax, rfl⟩ := h
    exact .inl ⟨.pbuf, rfl, storedIn_commitRx s (byteAt f 6) (by rw [length_slice _ _ _ le_rfl]; omega)⟩
  case dfrRtu =>
    obtain ⟨f, -, -, hmax, rfl⟩ := h
    exact .inl ⟨.pbuf, rfl, storedIn_commitRx s (byteAt f 0) (by rw [length_slice _ _ _ (by omega)]; omega)⟩
  case dfrAsc =>
    obtain ⟨f, d, -, -, -, hmax, rfl⟩ := h
    exact .inl ⟨.pbuf, rfl, storedIn_commitRx s (byteAt d 0) (by rw [length_slice _ _ _ (by omega)]; omega)⟩
  case rxApp b =>
    obtain ⟨hl, rfl⟩ := h
    exact .inl ⟨.fbuf, rfl, s.flen.toNat, [b], hl, rfl⟩

/-- A rule leaves every register its command does not list (R26 to R34). -/
theorem ran_readReg {i : Instr} {s u : State} (h : Ran i s u) {r : Reg} (hr : r ≠ .status) (hm : r ∉ mayWrite i) :
    readReg u r = readReg s r := by
  rw [ran_fields h]
  cases r
  case status => exact absurd rfl hr
  all_goals simp [readReg, lrcWord, hm]

/-- Ending a command writes no register but STATUS (R226). -/
theorem readReg_withResult (s : State) (c : ErrCode) {r : Reg} (hr : r ≠ .status) :
    readReg (withResult s c) r = readReg s r := by
  cases r
  case status => exact absurd rfl hr
  all_goals rfl

/-! A command as a whole: it ended with a code, or with OK after its rule. -/

theorem exec_next_busy {i : Instr} {s t : State} (h : exec i s = .next t) : t.busy = false := by
  rcases exec_next h with ⟨c, rfl⟩ | ⟨u, -, rfl⟩ <;> rfl

/-- No command touches the host's side or what is left of LATENCY. -/
theorem exec_next_hostSide {i : Instr} {s t : State} (h : exec i s = .next t) : t = { t with
    host := s.host, reads := s.reads, wait := s.wait, latencies := s.latencies, issued := s.issued } := by
  rcases exec_next h with ⟨c, rfl⟩ | ⟨u, hu, rfl⟩
  · rfl
  · rw [ran_fields hu]; rfl

theorem exec_srst (s : State) : exec .srst s = .next (withResult (resetRegisters s) .ok) := rfl

/-- SRST, and no other command, clears CMDLATCH (R42, log 14). -/
theorem exec_next_cmdlatch {i : Instr} {s t : State} (h : exec i s = .next t) :
    t.cmdlatch = if i = .srst then 0x00000000 else s.cmdlatch := by
  by_cases hi : i = .srst
  · subst hi
    obtain rfl := Host.Outcome.next.inj ((exec_srst s).symm.trans h)
    rfl
  · rw [if_neg hi]
    rcases exec_next h with ⟨c, rfl⟩ | ⟨u, hu, rfl⟩
    · rfl
    · simpa [hi] using congrArg State.cmdlatch (ran_fields hu)

theorem exec_next_readReg {i : Instr} {s t : State} (h : exec i s = .next t) {r : Reg} (hr : r ≠ .status)
    (hm : r ∉ mayWrite i) : readReg t r = readReg s r := by
  rcases exec_next h with ⟨c, rfl⟩ | ⟨u, hu, rfl⟩
  · exact readReg_withResult s c hr
  · exact (readReg_withResult u .ok hr).trans (ran_readReg hu hr hm)

theorem exec_next_mem {i : Instr} {s t : State} (h : exec i s = .next t) :
    (∃ b, storesBuffer i = some b ∧ StoredIn b s.mem t.mem) ∨ t.mem = s.mem := by
  rcases exec_next h with ⟨c, rfl⟩ | ⟨u, hu, rfl⟩
  · exact .inr rfl
  · exact (ran_mem hu).imp_right And.right

theorem exec_next_read_outside {i : Instr} {s t : State} {b : Buffer} (h : exec i s = .next t)
    (hb : storesBuffer i = some b) {a : Nat} (ha : b.holds a = false) : Memory.read t.mem a = Memory.read s.mem a := by
  rcases exec_next_mem h with ⟨b', hb', hm⟩ | hm
  · obtain rfl := Option.some.inj (hb.symm.trans hb')
    exact hm.read_outside ha
  · rw [hm]

theorem exec_next_mem_of_storesNone {i : Instr} {s t : State} (h : exec i s = .next t) (hb : storesBuffer i = none) :
    t.mem = s.mem := by
  rcases exec_next_mem h with ⟨b, hb', -⟩ | hm
  · exact nomatch hb.symm.trans hb'
  · exact hm

/-! The invariant (R24, R66). -/

theorem inv_of_idle {t : State} (hwf : Memory.wf t.mem = true) (hin : inBuffers t.mem = true) (hb : t.busy = false)
    (hw : t.wait = 0) : Inv t :=
  ⟨hwf, hin, by simp [hb], fun _ => hw⟩

theorem inv_withResult {s : State} (c : ErrCode) (h : Inv s) (hw : s.wait = 0) : Inv (withResult s c) := by
  obtain ⟨hwf, hin, -, -⟩ := h
  exact inv_of_idle hwf hin rfl hw

/-- A command that completes after its LATENCY keeps the invariant. -/
theorem inv_exec {i : Instr} {s t : State} (h : Inv s) (hw : s.wait = 0) (ht : exec i s = .next t) : Inv t := by
  obtain ⟨hwf, hin, -, -⟩ := h
  have hb := exec_next_busy ht
  have hwait : t.wait = s.wait := by rw [exec_next_hostSide ht]
  rcases exec_next_mem ht with ⟨b, -, hm⟩ | hm
  · exact inv_of_idle (hm.wf hwf) (hm.inBuffers hin) hb (hwait.trans hw)
  · exact inv_of_idle (hm ▸ hwf) (hm ▸ hin) hb (hwait.trans hw)

theorem inv_powerOnReset (s : State) : Inv (powerOnReset s) := inv_of_idle rfl rfl rfl rfl

/-- LATENCY passing keeps the invariant. `Inv` looks at neither `host` nor `reads`, so `s` may be a state with an
operation done or a value logged. -/
theorem inv_tick {s : State} (h : Inv s) : Inv (tick s) := by
  obtain ⟨hwf, hin, hok, hwait⟩ := h
  exact ⟨hwf, hin, hok, fun hb => by simp [hwait hb]⟩

/-- A register write on an idle block keeps the invariant: it issues a command with ERRCODE cleared, or touches neither
memory nor STATUS. -/
theorem inv_writeReg {s : State} (r : Reg) (v : Word32) (h : Inv s) : Inv (writeReg s r v) := by
  obtain ⟨hwf, hin, hok, hwait⟩ := h
  cases r
  case cmd => exact ⟨hwf, hin, fun _ => rfl, fun hb => nomatch hb⟩
  all_goals exact ⟨hwf, hin, hok, hwait⟩

theorem inv_bufWrites {s : State} {b : Buffer} {i : Nat} {v : List Byte} (hi : i + v.length ≤ b.size) (h : Inv s) :
    Inv (bufWrites s b i v) := by
  obtain ⟨hwf, hin, hok, hwait⟩ := h
  have hm : StoredIn b s.mem (bufWrites s b i v).mem := ⟨i, v, hi, rfl⟩
  exact ⟨hm.wf hwf, hm.inBuffers hin, hok, hwait⟩

/-- What the host does to an idle block keeps the invariant. -/
theorem inv_hostIdle {op : HostOp} {s t : State} (h : Inv s) (ht : hostIdle op s = .next t) : Inv t := by
  rcases hostIdle_next ht with ⟨v, rfl⟩ | ⟨r, v, rfl⟩ | ⟨b, i, v, hi, rfl⟩ | ⟨-, rfl⟩
  · exact h
  · exact inv_writeReg r v h
  · exact inv_bufWrites hi h
  · exact inv_powerOnReset s

/-- What the host does while a command is in progress keeps the invariant. -/
theorem inv_hostBusy {op : HostOp} {s t : State} (h : Inv s) (ht : hostBusy op s = .next t) : Inv t := by
  rcases hostBusy_next ht with ⟨-, rfl⟩ | ⟨-, rfl⟩ | ⟨-, rfl⟩
  · exact inv_tick h
  · exact inv_tick h
  · exact inv_powerOnReset _

/-- Settles O10: memory is empty, and the block is idle with no LATENCY pending. -/
theorem resetMeetsTheInvariant : Obligations.ResetMeetsTheInvariant := by
  unfold Obligations.ResetMeetsTheInvariant
  exact inv_of_idle rfl rfl rfl rfl

/-- Settles O11, by the kinds of step there are (`step_next`). -/
theorem everyStepKeepsTheInvariant : Obligations.EveryStepKeepsTheInvariant := by
  unfold Obligations.EveryStepKeepsTheInvariant
  intro s t h ht
  rcases step_next ht with ⟨-, hw, ⟨i, -, he⟩ | ⟨-, rfl⟩⟩ | ⟨-, ⟨-, rfl⟩ | ⟨op, rest, -, -, ho⟩ | ⟨op, rest, -, -, ho⟩⟩
  · exact inv_exec h hw he
  · exact inv_withResult .illegalCmd h hw
  · exact inv_tick h
  · exact inv_hostBusy h ho
  · exact inv_hostIdle (s := popHost s) h ho

/-! The frame rules (R26 to R36, R130, R193). -/

/-- Settles O44, from the registers and fields a rule can write. -/
theorem commandsWriteOnlyTheirRegisters : Obligations.CommandsWriteOnlyTheirRegisters := by
  unfold Obligations.CommandsWriteOnlyTheirRegisters
  intro i s t h
  exact ⟨fun r => exec_next_readReg h, exec_next_cmdlatch h, exec_next_hostSide h⟩

/-- Settles O45: a command's stores lie inside its buffer. -/
theorem commandsWriteOnlyTheirBuffer : Obligations.CommandsWriteOnlyTheirBuffer := by
  unfold Obligations.CommandsWriteOnlyTheirBuffer
  intro i s t h
  cases i
  case frmTcp | frmRtu | frmAsc | rxApp => exact fun a => exec_next_read_outside h rfl
  case dfrTcp | dfrRtu | dfrAsc => exact fun a => exec_next_read_outside h rfl
  all_goals exact exec_next_mem_of_storesNone h rfl

end Sys2Proof.Machine
end

section
/-! The host's side of a step (R20 to R37, R62 to R65, R226, R227): the register map, what a register holds and what
STATUS shows, and the block's answer to each 32-bit and 16-bit access, idle or busy. -/

namespace Sys2Proof.Machine

/-! The register map (R20). -/

theorem Reg.ofOffset_eq_some {off : Offset} {r : Reg} (h : Reg.ofOffset off = some r) : r.offset = off := by
  simpa using List.find?_some h

/-- Register by register the offsets are the multiples of 4 below 0x034. -/
theorem Reg.offset_aligned (r : Reg) : r.offset.toNat % 4 = 0 ∧ r.offset.toNat < 0x34 := by
  cases r <;> decide

theorem Reg.offset_all (k : Fin 13) : (Reg.all[k]'k.isLt).offset = BitVec.ofNat 12 (4 * k) := by
  revert k; decide

theorem Reg.exists_offset {off : Offset} (h : off.toNat % 4 = 0 ∧ off.toNat < 0x34) : ∃ r : Reg, r.offset = off := by
  obtain ⟨haligned, hbelow⟩ := h
  let k : Fin 13 := ⟨off.toNat / 4, by omega⟩
  refine ⟨_, (Reg.offset_all k).trans ?_⟩
  apply BitVec.eq_of_toNat_eq
  simp only [BitVec.toNat_ofNat, k]
  omega

/-- An offset that is no register's (R61, R64). -/
theorem Reg.ofOffset_none {off : Offset} (h : ¬(off.toNat % 4 = 0 ∧ off.toNat < 0x34)) : Reg.ofOffset off = none := by
  cases hr : Reg.ofOffset off with
  | none => rfl
  | some r => exact absurd (Reg.ofOffset_eq_some hr ▸ r.offset_aligned) h

/-! STATUS (R22, R24, R25). -/

/-- STATUS from BUSY, ERR, ERRCODE and RXOK (R22). -/
def statusOf (busy err : Bool) (code : BitVec 4) (rx : Bool) : Word32 :=
  (BitVec.ofBool busy).setWidth 32 ||| ((BitVec.ofBool err).setWidth 32 <<< 1) ||| (code.setWidth 32 <<< 4)
    ||| ((BitVec.ofBool rx).setWidth 32 <<< 8)

theorem statusWord_eq (s : State) : statusWord s = statusOf s.busy (errFlag s) s.errcode.number (rxok s) := rfl

theorem statusOf_fields (busy err : Bool) (code : BitVec 4) (rx : Bool) :
    (statusOf busy err code rx).getLsbD 0 = busy ∧ (statusOf busy err code rx).getLsbD 1 = err ∧
      (statusOf busy err code rx).extractLsb' 2 2 = 0#2 ∧ (statusOf busy err code rx).extractLsb' 4 4 = code ∧
      (statusOf busy err code rx).getLsbD 8 = rx ∧ (statusOf busy err code rx).extractLsb' 9 23 = 0#23 := by
  revert busy err code rx; decide

theorem errFlag_iff (s : State) : errFlag s = true ↔ s.errcode ≠ .ok := by
  unfold errFlag
  cases s.errcode <;> decide

theorem rxok_iff (s : State) : rxok s = true ↔ 4 ≤ s.flen.toNat ∧ s.crc = 0x0000 := by
  simp [rxok]

/-- Settles O50: the fields of `statusOf`, whose ERR and RXOK say what R24 and R25 say. -/
theorem statusWordFields : Obligations.StatusWordFields := by
  unfold Obligations.StatusWordFields
  intro s
  rw [statusWord_eq]
  obtain ⟨hbusy, herr, h2, hcode, hrx, h9⟩ := statusOf_fields s.busy (errFlag s) s.errcode.number (rxok s)
  exact ⟨hbusy, by rw [herr, errFlag_iff], h2, hcode, by rw [hrx, rxok_iff], h9, rfl⟩

/-! What registers hold (R26 to R34, R37). -/

/-- A field of `n` bits, read back as a word, is the written value's low `n` bits. -/
theorem setWidth_setWidth_eq_and (n : Nat) (h : n ≤ 32) (v : Word32) :
    (v.setWidth n).setWidth 32 = v &&& BitVec.ofNat 32 (2 ^ n - 1) := by
  have hn : 2 ^ n ≤ 2 ^ 32 := Nat.pow_le_pow_right (by decide) h
  have hpos : 0 < 2 ^ n := Nat.two_pow_pos n
  have hmod : v.toNat % 2 ^ n < 2 ^ n := Nat.mod_lt _ hpos
  apply BitVec.eq_of_toNat_eq
  rw [BitVec.toNat_and, BitVec.toNat_ofNat, Nat.mod_eq_of_lt (by omega : 2 ^ n - 1 < 2 ^ 32),
    Nat.and_two_pow_sub_one_eq_mod, BitVec.toNat_setWidth, BitVec.toNat_setWidth, Nat.mod_eq_of_lt (by omega)]

/-- A word is its two halves. -/
theorem halves_append (v : Word32) : (v.extractLsb' 16 16 : Word16) ++ (v.extractLsb' 0 16 : Word16) = v :=
  (BitVec.extractLsb'_append_extractLsb'_eq_extractLsb' rfl).trans BitVec.extractLsb'_eq_self

theorem lrcWord_toNat (s : State) : (lrcWord s).toNat = s.sum.toNat + 256 * ((256 - s.sum.toNat) % 256) := by
  have hw := (be16 (lrcOfSum s.sum) s.sum).isLt
  rw [lrcWord, BitVec.toNat_setWidth, Nat.mod_eq_of_lt (by omega), be16_toNat, lrcOfSum_toNat, Nat.add_comm]

theorem lrcWord_eq_or (s : State) :
    lrcWord s = s.sum.setWidth 32 ||| (BitVec.ofNat 8 (0x100 - s.sum.toNat)).setWidth 32 <<< 8 := by
  unfold lrcWord
  generalize s.sum = x
  revert x; decide

/-- Settles O55, register by register. -/
theorem registersReadBackTheirFields : Obligations.RegistersReadBackTheirFields := by
  unfold Obligations.RegistersReadBackTheirFields
  intro s v
  have hlrc : (readReg (writeReg s .lrc v) .lrc).toNat = v.toNat % 256 + 256 * ((256 - v.toNat % 256) % 256) := by
    have hsum : (writeReg s .lrc v).sum.toNat = v.toNat % 256 := BitVec.toNat_setWidth ..
    rw [← hsum]
    exact lrcWord_toNat _
  exact ⟨setWidth_setWidth_eq_and 16 (by decide) v, setWidth_setWidth_eq_and 8 (by decide) v,
    setWidth_setWidth_eq_and 16 (by decide) v, setWidth_setWidth_eq_and 9 (by decide) v,
    setWidth_setWidth_eq_and 10 (by decide) v, setWidth_setWidth_eq_and 3 (by decide) v,
    BitVec.extractLsb'_append_eq_right, BitVec.extractLsb'_append_eq_left, BitVec.extractLsb'_append_eq_left,
    BitVec.extractLsb'_append_eq_right, halves_append v, halves_append v, hlrc, rfl, rfl⟩

/-! The step of an idle block (R62, R64, R239). -/

theorem popHost_eq {s : State} {op : HostOp} {rest : List HostOp} (h : s.host = op :: rest) :
    popHost s = { s with host := rest } := by
  rw [popHost, h]; rfl

@[simp] theorem readReg_popHost (s : State) (r : Reg) : readReg (popHost s) r = readReg s r := by cases r <;> rfl

/-- A 32-bit read of a register logs its content and does nothing else. -/
theorem step_rd {s : State} {r : Reg} {rest : List HostOp} (hb : s.busy = false) (h : s.host = .rd r.offset :: rest) :
    step s = .next { s with host := rest, reads := s.reads ++ [readReg s r] } := by
  simp only [step_idle h hb, hostIdle, hostRead, Reg.ofOffset_offset, readReg_popHost]
  rw [popHost_eq h]; rfl

/-- A 32-bit write to a register is a write to it, the operation done. -/
theorem step_wr_rest {s : State} {r : Reg} {v : Word32} {rest : List HostOp} (hb : s.busy = false)
    (h : s.host = .wr r.offset v :: rest) : step s = .next (writeReg { s with host := rest } r v) := by
  rw [step_wr h hb, popHost_eq h]

/-- A 32-bit access to no register is a bus error. -/
theorem step_word_busError {s : State} {off : Offset} {rest : List HostOp} (hb : s.busy = false)
    (hn : Reg.ofOffset off = none) (h : s.host = .rd off :: rest ∨ ∃ v, s.host = .wr off v :: rest) :
    step s = .fault (.busError off) := by
  rcases h with h | ⟨v, h⟩ <;> simp [step_idle h hb, hostIdle, hostRead, hostWrite, hn]

/-- A 16-bit access is a bus error at any offset (R62, R63). -/
theorem step_halfword_busError {s : State} {off : Offset} {rest : List HostOp} (hb : s.busy = false)
    (h : s.host = .rdh off :: rest ∨ ∃ v, s.host = .wrh off v :: rest) : step s = .fault (.busError off) := by
  rcases h with h | ⟨v, h⟩ <;> rw [step_idle h hb] <;> rfl

/-- Settles O53: the registers' offsets are the aligned ones below 0x034. -/
theorem registersTakeAlignedWordAccesses : Obligations.RegistersTakeAlignedWordAccesses := by
  unfold Obligations.RegistersTakeAlignedWordAccesses
  intro s off rest hb
  refine and_assoc.1 ⟨?_, fun h => step_halfword_busError hb (.inl h),
    fun v h => step_halfword_busError hb (.inr ⟨v, h⟩)⟩
  by_cases ha : off.toNat % 4 = 0 ∧ off.toNat < 0x34
  · obtain ⟨r, rfl⟩ := Reg.exists_offset ha
    simp only [if_pos ha]
    exact ⟨fun h => ⟨r, rfl, step_rd hb h⟩, fun v h => ⟨r, rfl, step_wr_rest hb h⟩⟩
  · have hn := Reg.ofOffset_none ha
    simp only [if_neg ha]
    exact ⟨fun h => step_word_busError hb hn (.inl h), fun v h => step_word_busError hb hn (.inr ⟨v, h⟩)⟩

/-- Settles O60: the thirteen pairs are the registers' offsets and contents. -/
theorem registerReadsReturnTheirContent : Obligations.RegisterReadsReturnTheirContent := by
  unfold Obligations.RegisterReadsReturnTheirContent
  intro s rest hb c hc h
  rw [← lrcWord_eq_or] at hc
  have hc' : c ∈ Reg.all.map fun r => (r.offset, readReg s r) := hc
  obtain ⟨r, -, rfl⟩ := List.mem_map.1 hc'
  exact step_rd hb h

/-- Settles O56: each write is `writeReg`, whose arm for the register is what the rule says. -/
theorem registerWritesChangeOnlyTheirFields : Obligations.RegisterWritesChangeOnlyTheirFields := by
  unfold Obligations.RegisterWritesChangeOnlyTheirFields
  intro s v rest hb
  exact ⟨step_wr_rest (r := .status) hb, step_wr_rest (r := .crc) hb, step_wr_rest (r := .lrc) hb,
    step_wr_rest (r := .unit) hb, step_wr_rest (r := .tid) hb, step_wr_rest (r := .plen) hb,
    step_wr_rest (r := .flen) hb, step_wr_rest (r := .valLo) hb, step_wr_rest (r := .valHi) hb,
    step_wr_rest (r := .w01) hb, step_wr_rest (r := .w23) hb, step_wr_rest (r := .wcnt) hb⟩

/-- Settles O51: the write is an issue, whose wait is the next LATENCY. -/
theorem cmdWriteIssuesACommand : Obligations.CmdWriteIssuesACommand := by
  unfold Obligations.CmdWriteIssuesACommand
  intro s c rest hb
  exact ⟨fun h => ⟨nextLatency s, step_wr_rest (r := .cmd) hb h⟩, step_rd (r := .cmd) hb⟩

/-! The step while a command is in progress (R23, R71, R227). -/

theorem step_busy {s : State} {op : HostOp} {rest : List HostOp} (hb : s.busy = true) (hw : 0 < s.wait)
    (h : s.host = op :: rest) : step s = hostBusy op s := by
  have hr : engineReady s = false := by simp [engineReady]; omega
  rw [step_host hr, hostStep_busy h hb]

/-- A read of STATUS is logged, and one step of LATENCY passes. -/
theorem step_busy_rd_status {s : State} {rest : List HostOp} (hb : s.busy = true) (hw : 0 < s.wait)
    (h : s.host = .rd Reg.status.offset :: rest) : step s = .next (tick (logRead (popHost s) (statusWord s))) := by
  simp only [step_busy hb hw h, hostBusy, if_true]

/-- Settles O52: `hostBusy` lets a read of STATUS through and no other access. -/
theorem onlyStatusIsReadableWhileBusy : Obligations.OnlyStatusIsReadableWhileBusy := by
  unfold Obligations.OnlyStatusIsReadableWhileBusy
  intro s rest hb hw
  refine ⟨fun h => by rw [step_busy_rd_status hb hw h, popHost_eq h]; rfl, fun off => ?_⟩
  exact ⟨fun hoff h => (step_busy hb hw h).trans (if_neg hoff), fun v h => (step_busy hb hw h).trans rfl,
    fun h => (step_busy hb hw h).trans rfl, fun v h => (step_busy hb hw h).trans rfl,
    fun h => (step_busy hb hw h).trans rfl, fun v h => (step_busy hb hw h).trans rfl⟩

/-- Settles O57: no LATENCY has run out, so the step is the host's, and the host reads STATUS or does nothing. -/
theorem nothingChangesBeforeCompletion : Obligations.NothingChangesBeforeCompletion := by
  unfold Obligations.NothingChangesBeforeCompletion
  intro s t hb hw hop h
  rcases step_next h with ⟨-, hw0, -⟩ | ⟨-, ⟨-, rfl⟩ | ⟨op, rest, hh, -, ho⟩ | ⟨-, -, -, hidle, -⟩⟩
  · omega
  · rfl
  · rcases hostBusy_next ho with ⟨-, rfl⟩ | ⟨-, rfl⟩ | ⟨rfl, -⟩
    · rfl
    · rfl
    · exact absurd (by rw [hh]; rfl) hop
  · rw [hb] at hidle
    cases hidle

/-! Reset (R42, R170, R210). -/

/-- The state SRST leaves is reset's, but for the buffers and the block's environment. -/
theorem exec_srst_eq_reset (s : State) : exec .srst s = .next { State.reset with
    mem := s.mem, host := s.host, reads := s.reads, wait := s.wait, latencies := s.latencies, issued := s.issued } :=
  rfl

theorem readReg_reset_withEnvironment (r : Reg) (m : List Host.Cell) (ops : List HostOp) (vs : List Word32) (n : Nat)
    (ns : List Nat) (k : Nat) : readReg { State.reset with
      mem := m, host := ops, reads := vs, wait := n, latencies := ns, issued := k } r = readReg State.reset r := by
  cases r <;> rfl

/-- Settles O7: reset's fields by definition; SRST leaves reset's state but for what no register shows. -/
theorem resetValues : Obligations.ResetValues := by
  unfold Obligations.ResetValues
  refine ⟨⟨rfl, rfl, rfl, rfl, rfl, rfl, rfl, rfl, rfl, rfl, rfl, rfl, rfl, rfl, rfl, fun b i => rfl⟩, fun s => ?_⟩
  exact ⟨_, exec_srst_eq_reset s, fun r => readReg_reset_withEnvironment r .., rfl, rfl⟩

/-- Settles O33: both rules run to their end on every state. -/
theorem resetCommandsComplete : Obligations.ResetCommandsComplete := by
  unfold Obligations.ResetCommandsComplete
  intro s
  exact ⟨rfl, rfl, rfl, exec_srst_eq_reset s, rfl⟩

end Sys2Proof.Machine
end

section
/-! Commands and the memory they do not read: from two memories that agree on the current PDU and frame, a command's
rule does the same (R35, R36, R130). -/

namespace Sys2Proof.Machine

/-- Two rules' results from memories `m` and `n`: the same stop, or the same state but for memory, with the same bytes
stored at the same place. -/
inductive SameEffect (m n : List Host.Cell) : Except Stop State → Except Stop State → Prop
  | stop (e : Stop) : SameEffect m n (.error e) (.error e)
  | done (t : State) (a : Nat) (v : List Byte) :
    SameEffect m n (.ok { t with mem := Memory.writeBytes m a v }) (.ok { t with mem := Memory.writeBytes n a v })

theorem SameEffect.map {α : Type} {m n : List Host.Cell} (x : Except Stop α) {f g : α → State}
    (h : ∀ p, SameEffect m n (.ok (f p)) (.ok (g p))) : SameEffect m n (x.map f) (x.map g) := by
  cases x with
  | error e => exact .stop e
  | ok p => exact h p

theorem SameEffect.bind {α : Type} {m n : List Host.Cell} (x : Except Stop α) {f g : α → Except Stop State}
    (h : ∀ p, SameEffect m n (f p) (g p)) : SameEffect m n (x.bind f) (x.bind g) := by
  cases x with
  | error e => exact .stop e
  | ok p => exact h p

theorem SameEffect.ite {m n : List Host.Cell} (c : Prop) [Decidable c] {x x' y y' : Except Stop State}
    (hx : SameEffect m n x x') (hy : SameEffect m n y y') :
    SameEffect m n (if c then x else y) (if c then x' else y') := by
  split
  · exact hx
  · exact hy

/-- The rule each command completes with. -/
def ruleOf : Instr → State → Except Stop State
  | .crcInit, s => .ok { s with crc := 0xFFFF }
  | .crcUpd b, s => .ok { s with crc := crcByte s.crc b }
  | .lrcInit, s => .ok { s with sum := 0x00 }
  | .lrcUpd b, s => .ok { s with sum := s.sum + b }
  | .frmTcp inc, s => ruleFrmTcp inc s
  | .frmRtu, s => ruleFrmRtu s
  | .frmAsc, s => ruleFrmAsc s
  | .dfrTcp chk, s => ruleDfrTcp chk s
  | .dfrRtu, s => ruleDfrRtu s
  | .dfrAsc, s => ruleDfrAsc s
  | .rxRst, s => .ok { s with flen := 0, crc := 0xFFFF }
  | .rxApp b, s => ruleRxApp b s
  | .valPack t o, s => ruleValPack t o s
  | .valUnpack t o, s => ruleValUnpack t o s
  | .srst, s => .ok (resetRegisters s)

theorem exec_eq_complete_ruleOf (i : Instr) (s : State) : exec i s = complete s (ruleOf i s) := by
  cases i <;> rfl

/-! The rules that read a buffer. -/

section
variable (s : State) (m n : List Host.Cell)

theorem sameEffect_parseTcp (chk : Bool) (f : List Byte) :
    SameEffect m n (parseTcp chk { s with mem := m } f) (parseTcp chk { s with mem := n } f) :=
  .ite _ (.stop _) <| .ite _ (.stop _) <| .ite _ (.stop _) <| .ite _ (.stop _) <|
    .done { commitRx s (byteAt f 6) (slice f 7 f.length) with tid := be16 (byteAt f 0) (byteAt f 1) } _ _

theorem sameEffect_parseRtu (f : List Byte) :
    SameEffect m n (parseRtu { s with mem := m } f) (parseRtu { s with mem := n } f) :=
  .ite _ (.stop _) <| .ite _ (.stop _) <|
    .done { commitRx s (byteAt f 0) (slice f 1 (f.length - 2)) with crc := crc16 (slice f 0 (f.length - 2)) } _ _

theorem sameEffect_parseAscBytes (d : List Byte) :
    SameEffect m n (parseAscBytes { s with mem := m } d) (parseAscBytes { s with mem := n } d) :=
  .ite _ (.stop _) <| .ite _ (.stop _) <|
    .done { commitRx s (byteAt d 0) (slice d 1 (d.length - 1)) with sum := lrcSum (slice d 0 (d.length - 1)) } _ _

theorem sameEffect_parseAsc (f : List Byte) :
    SameEffect m n (parseAsc { s with mem := m } f) (parseAsc { s with mem := n } f) := by
  refine .ite _ (.stop _) <| .ite _ (.stop _) <| .ite _ (.stop _) ?_
  split
  · exact .stop _
  · exact sameEffect_parseAscBytes s m n _

end

/-- A memory that agrees with the state's on the current PDU and frame (R35, R36). -/
def AgreesOnCurrent (s : State) (m : List Host.Cell) : Prop :=
  (∀ j, j < s.plen.toNat → Memory.read m (Buffer.pbuf.addr j) = byteOf s .pbuf j) ∧
    ∀ j, j < s.flen.toNat → Memory.read m (Buffer.fbuf.addr j) = byteOf s .fbuf j

theorem checkTx_congr {s : State} {m : List Host.Cell} (h : AgreesOnCurrent s m) :
    checkTx { s with mem := m } = checkTx s := by
  rw [checkTx_eq, checkTx_eq, bufReads_congr (s := s) _ 0 fun j hj => by rw [Nat.zero_add]; exact h.1 j hj]

theorem readFrame_congr {s : State} {m : List Host.Cell} (h : AgreesOnCurrent s m) (lo hi : Nat) :
    readFrame { s with mem := m } lo hi = readFrame s lo hi := by
  rw [readFrame, readFrame, bufReads_congr (s := s) _ 0 fun j hj => by rw [Nat.zero_add]; exact h.2 j hj]

/-- A command's rule has the same effect from both memories. -/
theorem sameEffect_ruleOf (i : Instr) {s : State} {m : List Host.Cell} (h : AgreesOnCurrent s m) :
    SameEffect s.mem m (ruleOf i s) (ruleOf i { s with mem := m }) := by
  have htx := checkTx_congr h
  have hrx := readFrame_congr h
  cases i
  case crcInit => exact .done { s with crc := 0xFFFF } 0 []
  case crcUpd b => exact .done { s with crc := crcByte s.crc b } 0 []
  case lrcInit => exact .done { s with sum := 0x00 } 0 []
  case lrcUpd b => exact .done { s with sum := s.sum + b } 0 []
  case frmTcp inc =>
    simp only [ruleOf, ruleFrmTcp, htx]
    exact .map _ fun p => .done { putFrame s (mbapFrame (txTid inc s) s.unit p) with tid := txTid inc s } _ _
  case frmRtu =>
    simp only [ruleOf, ruleFrmRtu, htx]
    exact .map _ fun p => .done { putFrame s (rtuFrame s.unit p) with crc := rtuCrc s.unit p } _ _
  case frmAsc =>
    simp only [ruleOf, ruleFrmAsc, htx]
    exact .map _ fun p => .done { putFrame s (ascFrame s.unit p) with sum := lrcSum (s.unit :: p) } _ _
  case dfrTcp chk =>
    simp only [ruleOf, ruleDfrTcp, hrx]
    exact .bind _ fun f => sameEffect_parseTcp s s.mem m chk f
  case dfrRtu =>
    simp only [ruleOf, ruleDfrRtu, hrx]
    exact .bind _ fun f => sameEffect_parseRtu s s.mem m f
  case dfrAsc =>
    simp only [ruleOf, ruleDfrAsc, hrx]
    exact .bind _ fun f => sameEffect_parseAsc s s.mem m f
  case rxRst => exact .done { s with flen := 0, crc := 0xFFFF } 0 []
  case rxApp b =>
    exact .ite _ (.stop _)
      (.done { s with flen := s.flen + 1, crc := crcByte s.crc b } (Buffer.fbuf.addr s.flen.toNat) [b])
  case valPack t o =>
    exact .ite _ (.done { writeWords s (packedWords t o s.val) with wcnt := BitVec.ofNat 3 (valWidth t) } 0 [])
      (.stop _)
  case valUnpack t o =>
    refine .ite _ (.stop _) ?_
    have hwords : words { s with mem := m } = words s := rfl
    rw [hwords]
    split
    · rename_i v _
      exact .done { s with val := v } 0 []
    · exact .stop _
  case srst => exact .done (resetRegisters s) 0 []

/-- The same bytes stored over two memories: an address reads the same in both afterwards, or each memory as it was. -/
theorem read_writeBytes_both (m n : List Host.Cell) (a : Nat) (v : List Byte) (b : Nat) :
    Memory.read (Memory.writeBytes n a v) b = Memory.read (Memory.writeBytes m a v) b ∨
      Memory.read (Memory.writeBytes n a v) b = Memory.read n b ∧
        Memory.read (Memory.writeBytes m a v) b = Memory.read m b := by
  simp only [Memory.read_writeBytes]
  split
  · exact .inl rfl
  · exact .inr ⟨rfl, rfl⟩

/-- Settles O49: the rule has the same effect from both memories, and completion adds the same code. -/
theorem commandsUseOnlyTheCurrentPduAndFrame : Obligations.CommandsUseOnlyTheCurrentPduAndFrame := by
  unfold Obligations.CommandsUseOnlyTheCurrentPduAndFrame
  intro i s m hp hf
  have hrule := sameEffect_ruleOf i (m := m) ⟨hp, hf⟩
  rw [exec_eq_complete_ruleOf, exec_eq_complete_ruleOf]
  generalize ruleOf i s = x, ruleOf i { s with mem := m } = y at hrule
  cases hrule with
  | stop e =>
    cases e with
    | err c =>
      refine ⟨fun t ht => ⟨_, rfl, ?_, fun a => .inr ⟨rfl, ?_⟩⟩, fun f hf => nomatch hf⟩
      all_goals obtain rfl := Host.Outcome.next.inj ht
      all_goals rfl
    | fault f => exact ⟨fun t ht => (nomatch ht), fun g hg => hg⟩
  | done u a v =>
    refine ⟨fun t ht => ?_, fun f hf => nomatch hf⟩
    obtain rfl := Host.Outcome.next.inj ht
    exact ⟨_, rfl, rfl, read_writeBytes_both s.mem m a v⟩

end Sys2Proof.Machine
end

section
/-! A reception (R170 to R172): RX.RST and then RX.APP of each byte, as one run of commands. -/

namespace Sys2Proof.Machine

/-- What receiving bytes adds to a state (R171): the bytes from FBUF[FLEN] up, their number to FLEN, and each in turn to
the CRC. -/
def received (s : State) (bs : List Byte) : State :=
  { bufWrites s .fbuf s.flen.toNat bs with flen := s.flen + BitVec.ofNat 10 bs.length, crc := bs.foldl crcByte s.crc }

theorem received_nil (s : State) : received s [] = s := by
  simp [received, bufWrites, Memory.writeBytes]

/-- The first byte, then the rest: FLEN does not wrap while FBUF has room for a byte. -/
theorem received_cons {s : State} (b : Byte) (bs : List Byte) (h : s.flen.toNat < 513) :
    received s (b :: bs) = received (received s [b]) bs := by
  have hflen : (s.flen.toNat + 1) % 1024 = s.flen.toNat + 1 := Nat.mod_eq_of_lt (by omega)
  have hlen : BitVec.ofNat 10 (bs.length + 1) = 1 + BitVec.ofNat 10 bs.length := by
    rw [Nat.add_comm, BitVec.ofNat_add]; rfl
  simp [received, bufWrites, Memory.writeBytes, hflen, hlen, Buffer.addr, BitVec.add_assoc, Nat.add_assoc]

/-- RX.APP with room in FBUF receives its byte; ERRCODE and BUSY are left as an OK completion leaves them. -/
theorem exec_rxApp_next {s : State} (b : Byte) (h : s.flen.toNat < 513) :
    exec (.rxApp b) s = .next (withResult (received s [b]) .ok) := by
  show complete s (ruleRxApp b s) = _
  rw [ruleRxApp, if_neg (by simpa [Config.fbufSize] using h)]
  rfl

/-- RX.APP of each byte, after a command that ended with OK, receives the bytes. -/
theorem execAll_rxApp (bs : List Byte) (s : State) (h : s.flen.toNat + bs.length ≤ 513) :
    execAll (bs.map .rxApp) (withResult s .ok) = .next (withResult (received s bs) .ok) := by
  induction bs generalizing s with
  | nil => rw [received_nil]; rfl
  | cons b bs ih =>
    simp only [List.length_cons] at h
    have hstep : exec (.rxApp b) (withResult s .ok) = .next (withResult (received s [b]) .ok) :=
      exec_rxApp_next (s := withResult s .ok) b (by rw [withResult_flen]; omega)
    have hflen : (received s [b]).flen.toNat = s.flen.toNat + 1 := by
      show (s.flen + 1).toNat = _
      simp; omega
    rw [List.map_cons, execAll_cons_next hstep, ih _ (by omega), received_cons b bs (by omega)]

/-- The state RX.RST begins a reception from (R170). -/
def receptionStart (s : State) : State := { s with flen := 0, crc := 0xFFFF }

theorem execAll_reception (s : State) {bs : List Byte} (h : bs.length ≤ 513) :
    execAll (.rxRst :: bs.map .rxApp) s = .next (withResult (received (receptionStart s) bs) .ok) := by
  have hstart : exec .rxRst s = .next (withResult (receptionStart s) .ok) := rfl
  rw [execAll_cons_next hstart, execAll_rxApp bs _ (by simpa [receptionStart] using h)]

/-- A sequence of at least two bytes has CRC zero exactly when its last two are, low byte first, the CRC of the others
(R103, R172). -/
theorem crc16_eq_zero_iff {bs : List Byte} (h : 2 ≤ bs.length) :
    crc16 bs = 0 ↔ crc16 (bs.take (bs.length - 2)) = be16 (byteAt bs (bs.length - 1)) (byteAt bs (bs.length - 2)) := by
  have hsplit : bs = bs.take (bs.length - 2) ++ [byteAt bs (bs.length - 2), byteAt bs (bs.length - 1)] := by
    have hlast : bs.drop (bs.length - 2) = [byteAt bs (bs.length - 2), byteAt bs (bs.length - 1)] := by
      rw [List.drop_eq_getElem_cons (by omega), List.drop_eq_getElem_cons (by omega), List.drop_eq_nil_of_le (by omega)]
      simp [byteAt, show bs.length - 2 + 1 = bs.length - 1 by omega, show bs.length - 2 < bs.length by omega,
        show bs.length - 1 < bs.length by omega]
    rw [← hlast, List.take_append_drop]
  conv_lhs => rw [hsplit, crc16_append]
  exact crcByte_crcByte_eq_zero _ _ _

/-- Settles O36: the run leaves `received`, and RXOK asks for a CRC of zero. -/
theorem receptionRaisesRxokOnAValidCrc : Obligations.ReceptionRaisesRxokOnAValidCrc := by
  unfold Obligations.ReceptionRaisesRxokOnAValidCrc
  intro s bs h
  have hmem : (received (receptionStart s) bs).mem = Memory.writeBytes s.mem (Buffer.fbuf.addr 0) bs := rfl
  have hflen : (received (receptionStart s) bs).flen = BitVec.ofNat 10 bs.length := BitVec.zero_add _
  have hframe : IsFrame (withResult (received (receptionStart s) bs) .ok) bs := isFrame_of_mem hmem hflen (by omega)
  refine ⟨_, execAll_reception s h, rfl, hframe, sameOutside_of_mem hmem, ?_⟩
  rw [rxok_iff, ← hframe.1]
  exact and_congr_right fun h4 => crc16_eq_zero_iff (by omega)

end Sys2Proof.Machine
end

section
/-! The canonical forms of VAL (R180) as ranges. -/

namespace Sys2Proof.Machine

/-- The bits from `n` up are 0 exactly for values below 2^n. -/
theorem extractLsb'_high_eq_zero_iff {n m : Nat} (v : BitVec (n + m)) :
    (v.extractLsb' n m == 0) = true ↔ v.toNat < 2 ^ n := by
  have hpos : 0 < 2 ^ n := Nat.two_pow_pos n
  have hhigh : v.toNat / 2 ^ n < 2 ^ m := Nat.div_lt_of_lt_mul (Nat.pow_add 2 n m ▸ v.isLt)
  rw [beq_iff_eq, ← BitVec.toNat_inj, BitVec.extractLsb'_toNat, Nat.shiftRight_eq_div_pow, Nat.mod_eq_of_lt hhigh,
    BitVec.ofNat_eq_ofNat, BitVec.toNat_zero, Nat.div_eq_zero_iff_lt hpos]

/-- The low `n` bits, read as a signed number, are congruent to the whole modulo 2^n. -/
theorem toInt_extractLsb'_low {n w : Nat} (hw : n ≤ w) (v : BitVec w) :
    (v.extractLsb' 0 n).toInt = v.toInt.bmod (2 ^ n) := by
  rw [BitVec.toInt_extractLsb', Nat.shiftRight_zero, BitVec.toInt_eq_toNat_bmod,
    Int.bmod_bmod_of_dvd (Nat.pow_dvd_pow 2 hw)]

/-- A value is its low `n` bits sign-extended exactly when it lies in their signed range. -/
theorem eq_signExtend_low_iff {n w : Nat} (hn : 0 < n) (hw : n ≤ w) (v : BitVec w) :
    v = (v.extractLsb' 0 n).signExtend w ↔ -(2 ^ (n - 1)) ≤ v.toInt ∧ v.toInt < 2 ^ (n - 1) := by
  have hext : ((v.extractLsb' 0 n).signExtend w).toInt = (v.extractLsb' 0 n).toInt := BitVec.toInt_signExtend_of_le hw
  constructor
  · intro h
    rw [h, hext]
    exact ⟨BitVec.le_toInt _, BitVec.toInt_lt⟩
  · rintro ⟨hlo, hhi⟩
    have htwo : ((2 ^ n : Nat) : Int) = 2 * 2 ^ (n - 1) := by
      rw [Nat.cast_pow, Nat.cast_ofNat, ← pow_succ', Nat.sub_add_cancel hn]
    apply BitVec.eq_of_toInt_eq
    rw [hext, toInt_extractLsb'_low hw, Int.bmod_eq_of_le (by omega) (by omega)]

/-- Settles O37, a type at a time. -/
theorem canonicalFormsOfVal : Obligations.CanonicalFormsOfVal := by
  unfold Obligations.CanonicalFormsOfVal
  intro v
  refine ⟨extractLsb'_high_eq_zero_iff (n := 16) (m := 48) v, extractLsb'_high_eq_zero_iff (n := 32) (m := 32) v,
    extractLsb'_high_eq_zero_iff (n := 32) (m := 32) v, ?_, ?_, rfl, ?_⟩
  · exact beq_iff_eq.trans (eq_signExtend_low_iff (n := 16) (by decide) (by decide) v)
  · exact beq_iff_eq.trans (eq_signExtend_low_iff (n := 32) (by decide) (by decide) v)
  · simp [canonical]

end Sys2Proof.Machine
end

section
/-! Reads that meet an unwritten byte (R66): the frame commands' checks before the PDU is read (R132, R229), and the
whole frame a deframe command reads before any other check (R150). -/

namespace Sys2Proof.Machine

/-- Of the first `n` bytes of a buffer, byte `j` is the first that is unwritten (R39). -/
def FirstUnwritten (s : State) (b : Buffer) (n j : Nat) : Prop :=
  j < n ∧ byteOf s b j = none ∧ ∀ k, k < j → byteOf s b k ≠ none

theorem FirstUnwritten.bufReads_eq {s : State} {b : Buffer} {n j : Nat} (h : FirstUnwritten s b n j) :
    bufReads s b 0 n = .error (.fault (.unwrittenRead b j)) := by
  obtain ⟨hj, hnone, hbelow⟩ := h
  exact (bufReads_error_iff ..).2
    ⟨j, hj, by rwa [Nat.zero_add], by simpa only [Nat.zero_add] using hbelow, by rw [Nat.zero_add]⟩

/-! `check_tx` (R132), a case of R229's order at a time. -/

theorem checkTx_of_length {s : State} (h : s.plen.toNat = 0 ∨ 253 < s.plen.toNat) : checkTx s = raise .valPduLen := by
  rw [checkTx_eq, if_pos (by omega)]

theorem checkTx_of_unit {s : State} (hlen : ¬(s.plen.toNat = 0 ∨ 253 < s.plen.toNat)) (h : 248 ≤ s.unit.toNat) :
    checkTx s = raise .valUnit := by
  rw [checkTx_eq, if_neg (by omega), if_pos (by omega)]

theorem checkTx_of_unwritten {s : State} {j : Nat} (hlen : ¬(s.plen.toNat = 0 ∨ 253 < s.plen.toNat))
    (hunit : ¬248 ≤ s.unit.toNat) (h : FirstUnwritten s .pbuf s.plen.toNat j) :
    checkTx s = .error (.fault (.unwrittenRead .pbuf j)) := by
  rw [checkTx_eq, if_neg (by omega), if_neg (by omega), h.bufReads_eq]

/-- Settles O22: a frame command stops as `check_tx` does. -/
theorem frameCommandsCheckLengthThenUnit : Obligations.FrameCommandsCheckLengthThenUnit := by
  unfold Obligations.FrameCommandsCheckLengthThenUnit
  intro i s hi
  split
  next hlen => exact exec_frm_error hi (checkTx_of_length hlen)
  next hlen =>
    split
    next hunit => exact exec_frm_error hi (checkTx_of_unit hlen hunit)
    next hunit =>
      intro j hj hnone hbelow
      exact exec_frm_error hi (checkTx_of_unwritten hlen hunit ⟨hj, hnone, hbelow⟩)

/-! The frame of a deframe command (R150). -/

/-- With FLEN within the bounds, an unwritten byte of the frame stops a deframe command, whatever it does next. -/
theorem readFrame_bind_unwritten {s : State} {j : Nat} (h : FirstUnwritten s .fbuf s.flen.toNat j) {lo hi : Nat}
    (hlo : lo ≤ s.flen.toNat) (hhi : s.flen.toNat ≤ hi) (k : List Byte → Except Stop State) :
    (readFrame s lo hi).bind k = .error (.fault (.unwrittenRead .fbuf j)) := by
  rw [readFrame, if_neg (by omega), h.bufReads_eq]
  rfl

/-- Settles O30: each deframe command is `readFrame` with its bounds, then its checks. -/
theorem deframeReadsTheWholeFrameFirst : Obligations.DeframeReadsTheWholeFrameFirst := by
  unfold Obligations.DeframeReadsTheWholeFrameFirst
  intro s j hj hnone hbelow
  have hstop {lo hi : Nat} (hlo : lo ≤ s.flen.toNat) (hhi : s.flen.toNat ≤ hi) (k : List Byte → Except Stop State) :
      complete s ((readFrame s lo hi).bind k) = .fault (.unwrittenRead .fbuf j) := by
    rw [readFrame_bind_unwritten ⟨hj, hnone, hbelow⟩ hlo hhi, complete_fault]
  exact ⟨fun hlo hhi chk => hstop hlo hhi (parseTcp chk s), fun hlo hhi => hstop hlo hhi (parseRtu s),
    fun hlo hhi => hstop hlo hhi (parseAsc s)⟩

end Sys2Proof.Machine
end

section
/-! The faults a command can meet (R66, R220, R225): only its reads of the current PDU or frame fault. -/

namespace Sys2Proof.Machine

/-- A rule that may raise a code and meets no model fault. -/
def NoFault {α : Type} (x : Except Stop α) : Prop := ∀ f, x ≠ .error (.fault f)

section
variable {α : Type}

theorem NoFault.ok (a : α) : NoFault (.ok a : Except Stop α) := fun _ h => nomatch h

theorem NoFault.raise (c : ErrCode) : NoFault (raise c : Except Stop α) := fun _ h => nomatch h

theorem NoFault.ite {c : Prop} [Decidable c] {x y : Except Stop α} (hx : NoFault x) (hy : NoFault y) :
    NoFault (if c then x else y) := by
  split
  · exact hx
  · exact hy

theorem eq_fault_of_map {β : Type} {x : Except Stop α} {g : α → β} {f : Fault} (h : x.map g = .error (.fault f)) :
    x = .error (.fault f) := by
  cases x with
  | error e => exact congrArg Except.error (Except.error.inj h)
  | ok a => exact nomatch h

theorem eq_fault_of_bind {β : Type} {x : Except Stop α} {k : α → Except Stop β} {f : Fault} (hk : ∀ a, NoFault (k a))
    (h : x.bind k = .error (.fault f)) : x = .error (.fault f) := by
  cases x with
  | error e => exact congrArg Except.error (Except.error.inj h)
  | ok a => exact absurd h (hk a f)

end

/-! Rules that read no buffer, and what a deframe command does after its read (R229). -/

theorem noFault_parseTcp (chk : Bool) (s : State) (f : List Byte) : NoFault (parseTcp chk s f) :=
  .ite (.raise _) <| .ite (.raise _) <| .ite (.raise _) <| .ite (.raise _) (.ok _)

theorem noFault_parseRtu (s : State) (f : List Byte) : NoFault (parseRtu s f) :=
  .ite (.raise _) <| .ite (.raise _) (.ok _)

theorem noFault_parseAscBytes (s : State) (d : List Byte) : NoFault (parseAscBytes s d) :=
  .ite (.raise _) <| .ite (.raise _) (.ok _)

theorem noFault_parseAsc (s : State) (f : List Byte) : NoFault (parseAsc s f) := by
  refine .ite (.raise _) <| .ite (.raise _) <| .ite (.raise _) ?_
  split
  · exact .raise _
  · exact noFault_parseAscBytes s _

theorem noFault_ruleValUnpack (t : ValType) (o : ByteOrder) (s : State) : NoFault (ruleValUnpack t o s) := by
  refine .ite (.raise _) ?_
  split
  · exact .ok _
  · exact .raise _

/-- A command that reads no buffer meets no fault. -/
theorem noFault_ruleOf {i : Instr} (h : readsBuffer i = none) (s : State) : NoFault (ruleOf i s) := by
  cases i
  case frmTcp | frmRtu | frmAsc | dfrTcp | dfrRtu | dfrAsc => exact nomatch h
  case crcInit | crcUpd | lrcInit | lrcUpd | rxRst | srst => exact .ok _
  case rxApp => exact .ite (.raise _) (.ok _)
  case valPack => exact .ite (.ok _) (.raise _)
  case valUnpack t o => exact noFault_ruleValUnpack t o s

/-! Rules that read the current PDU or frame. -/

/-- The length of what a buffer currently holds for the commands: PLEN or FLEN (R30, R31). -/
def currentLength (s : State) : Buffer → Nat
  | .pbuf => s.plen.toNat
  | .fbuf => s.flen.toNat

/-- The fault is a read of an unwritten byte of the buffer's current content (R66). -/
def IsUnwrittenRead (s : State) (b : Buffer) (f : Fault) : Prop :=
  ∃ j, f = .unwrittenRead b j ∧ byteOf s b j = none ∧ j < currentLength s b

theorem isUnwrittenRead_of_checkTx {s : State} {f : Fault} (h : checkTx s = .error (.fault f)) :
    IsUnwrittenRead s .pbuf f := by
  rcases checkTx_error s _ h with ⟨he, -⟩ | ⟨he, -⟩ | ⟨j, hj, hnone, -, he⟩
  · exact nomatch he
  · exact nomatch he
  · exact ⟨j, Stop.fault.inj he, hnone, hj⟩

theorem isUnwrittenRead_of_readFrame {s : State} {lo hi : Nat} {f : Fault}
    (h : readFrame s lo hi = .error (.fault f)) : IsUnwrittenRead s .fbuf f := by
  rcases readFrame_error s lo hi _ h with ⟨he, -⟩ | ⟨j, hj, hnone, -, he⟩
  · exact nomatch he
  · exact ⟨j, Stop.fault.inj he, hnone, hj⟩

/-- A fault that a command's rule meets is a read of the buffer the command reads. -/
theorem isUnwrittenRead_of_ruleOf {i : Instr} {s : State} {f : Fault} (h : ruleOf i s = .error (.fault f)) :
    ∃ b, readsBuffer i = some b ∧ IsUnwrittenRead s b f := by
  cases i
  case frmTcp | frmRtu | frmAsc => exact ⟨.pbuf, rfl, isUnwrittenRead_of_checkTx (eq_fault_of_map h)⟩
  case dfrTcp chk => exact ⟨.fbuf, rfl, isUnwrittenRead_of_readFrame (eq_fault_of_bind (noFault_parseTcp chk s) h)⟩
  case dfrRtu => exact ⟨.fbuf, rfl, isUnwrittenRead_of_readFrame (eq_fault_of_bind (noFault_parseRtu s) h)⟩
  case dfrAsc => exact ⟨.fbuf, rfl, isUnwrittenRead_of_readFrame (eq_fault_of_bind (noFault_parseAsc s) h)⟩
  all_goals exact absurd h (noFault_ruleOf rfl s f)

/-- Settles O48: a command faults only where its rule does. -/
theorem commandsStopOnlyOnUnwrittenBytes : Obligations.CommandsStopOnlyOnUnwrittenBytes := by
  unfold Obligations.CommandsStopOnlyOnUnwrittenBytes
  intro i s
  rw [exec_eq_complete_ruleOf]
  rcases complete_cases s (ruleOf i s) with hnext | ⟨f, hrule, hfault⟩
  · exact .inl hnext
  · obtain ⟨b, hreads, j, rfl, hnone, hj⟩ := isUnwrittenRead_of_ruleOf hrule
    exact .inr ⟨b, j, hfault, hreads, hnone, by cases b <;> exact hj⟩

end Sys2Proof.Machine
end

section
/-! The host's 8-bit accesses to an idle block (R61, R63, R64, R66). -/

namespace Sys2Proof.Machine

/-- The offsets of the two buffers' bytes (R61). -/
def IsBufferOffset (off : Offset) : Prop :=
  (0x400 ≤ off.toNat ∧ off.toNat ≤ 0x4FC) ∨ (0x800 ≤ off.toNat ∧ off.toNat ≤ 0xA00)

theorem Buffer.isBufferOffset {off : Offset} {b : Buffer} {i : Nat} (hi : i < b.size) (h : b.addr i = off.toNat) :
    IsBufferOffset off := by
  unfold IsBufferOffset
  cases b <;> simp only [Buffer.size, Buffer.addr, Buffer.base, Config.pbufSize, Config.fbufSize] at hi h <;> omega

theorem Buffer.exists_addr {off : Offset} (h : IsBufferOffset off) :
    ∃ (b : Buffer) (i : Nat), i < b.size ∧ BitVec.ofNat 12 (b.addr i) = off := by
  rcases h with ⟨hlo, hhi⟩ | ⟨hlo, hhi⟩
  · refine ⟨.pbuf, off.toNat - 0x400, by simp only [Buffer.size, Config.pbufSize]; omega, ?_⟩
    rw [Buffer.addr, Buffer.base, Nat.add_sub_cancel' hlo, BitVec.ofNat_toNat, BitVec.setWidth_eq]
  · refine ⟨.fbuf, off.toNat - 0x800, by simp only [Buffer.size, Config.fbufSize]; omega, ?_⟩
    rw [Buffer.addr, Buffer.base, Nat.add_sub_cancel' hlo, BitVec.ofNat_toNat, BitVec.setWidth_eq]

theorem Buffer.ofOffset_none {off : Offset} (h : ¬IsBufferOffset off) : Buffer.ofOffset off = none := by
  cases ho : Buffer.ofOffset off with
  | none => rfl
  | some c =>
    obtain ⟨hi, haddr⟩ := bufferOfOffset_some ho
    exact absurd (Buffer.isBufferOffset hi haddr) h

/-! The step of each 8-bit access. -/

section
variable {s : State} {b : Buffer} {i : Nat} {rest : List HostOp} (hb : s.busy = false) (hi : i < b.size)
include hb hi

/-- An 8-bit write stores its byte, the operation done. -/
theorem step_wrb_rest {v : Byte} (h : s.host = .wrb (BitVec.ofNat 12 (b.addr i)) v :: rest) :
    step s = .next { s with host := rest, mem := Memory.write s.mem (b.addr i) v } := by
  rw [step_wrb hi h hb, popHost_eq h]
  rfl

/-- An 8-bit read of a written byte logs it, zero-extended (log 3). -/
theorem step_rdb {x : Byte} (h : s.host = .rdb (BitVec.ofNat 12 (b.addr i)) :: rest) (hx : byteOf s b i = some x) :
    step s = .next { s with host := rest, reads := s.reads ++ [x.setWidth 32] } := by
  have hmem : Memory.read s.mem (b.addr i) = some x := hx
  simp only [step_idle h hb, hostIdle, hostReadByte, b.ofOffset_addr hi, popHost_eq h, hmem]
  rfl

/-- An 8-bit read of an unwritten byte is a model fault (R66). -/
theorem step_rdb_unwritten (h : s.host = .rdb (BitVec.ofNat 12 (b.addr i)) :: rest) (hx : byteOf s b i = none) :
    step s = .fault (.unwrittenRead b i) := by
  have hmem : Memory.read s.mem (b.addr i) = none := hx
  simp only [step_idle h hb, hostIdle, hostReadByte, b.ofOffset_addr hi, popHost_eq h, hmem]

end

/-- An 8-bit access outside the buffers is a bus error (R64). -/
theorem step_byte_busError {s : State} {off : Offset} {rest : List HostOp} (hb : s.busy = false)
    (hoff : ¬IsBufferOffset off) (h : s.host = .rdb off :: rest ∨ ∃ v, s.host = .wrb off v :: rest) :
    step s = .fault (.busError off) := by
  have hn := Buffer.ofOffset_none hoff
  rcases h with h | ⟨v, h⟩ <;> simp only [step_idle h hb, hostIdle, hostReadByte, hostWriteByte, hn]

/-- Settles O54: the offsets accepted are the buffers', and a write there is one `Memory.write`. -/
theorem buffersTakeByteAccesses : Obligations.BuffersTakeByteAccesses := by
  unfold Obligations.BuffersTakeByteAccesses
  intro s off rest hb
  split
  next hoff =>
    obtain ⟨b, i, hi, rfl⟩ := Buffer.exists_addr hoff
    rw [b.toNat_offset hi]
    refine ⟨fun v h => ⟨_, step_wrb_rest hb hi h, rfl, Memory.read_write_same .., fun a ha => ?_⟩, fun h => ⟨?_, ?_⟩⟩
    · exact Memory.read_write_ne _ v ha
    · exact fun x hx => step_rdb hb hi h hx
    · exact fun hx => ⟨b, i, rfl, step_rdb_unwritten hb hi h hx⟩
  next hoff =>
    exact ⟨fun h => step_byte_busError hb hoff (.inl h), fun v h => step_byte_busError hb hoff (.inr ⟨v, h⟩)⟩

end Sys2Proof.Machine
end

section
/-! The opcode map field by field (R81, R82, R87): the fields of each command's word, and that a word decodes to a
command exactly when its fields are that command's (R88, R95). From this: decoding and encoding are inverse, no word has
two rows, and the words that decode are the well-formed ones (R89). -/

namespace Sys2Proof

/-! The operand codes (R84 to R86). -/

theorem ValType.ofCode_eq_some_iff (x : BitVec 3) (t : ValType) : ValType.ofCode x = some t ↔ x = t.code := by
  cases t <;> revert x <;> decide

theorem ByteOrder.ofCode_eq_iff (x : BitVec 2) (o : ByteOrder) : ByteOrder.ofCode x = o ↔ x = o.code := by
  cases o <;> revert x <;> decide

theorem beq_one_eq_iff (x : BitVec 1) (b : Bool) : (x == 1) = b ↔ x = BitVec.ofBool b := by
  revert x b; decide

/-- Every TYPE but 7 is some type's number (R84). -/
theorem ValType.exists_code {x : BitVec 3} (h : x ≠ 7) : ∃ t : ValType, t.code = x := by
  have hsome : ∀ x : BitVec 3, x ≠ 7 → (ValType.ofCode x).isSome = true := by decide
  obtain ⟨t, ht⟩ := Option.isSome_iff_exists.1 (hsome x h)
  exact ⟨t, ((ofCode_eq_some_iff x t).1 ht).symm⟩

/-! The words of R95, by fields. -/

/-- The fields of a word that holds an OP and nothing else. -/
def opFields (op : BitVec 8) : Fields :=
  { op := op, imm8 := 0, type := 0, res19 := 0, order := 0, res22 := 0, opt := 0, res25 := 0 }

/-- The word of a command split into its fields: OP, and the operands where R83 to R86 place them. -/
def Instr.fields : Instr → Fields
  | .crcInit => opFields 0x01
  | .crcUpd b => { opFields 0x02 with imm8 := b }
  | .lrcInit => opFields 0x03
  | .lrcUpd b => { opFields 0x04 with imm8 := b }
  | .frmTcp inc => { opFields 0x10 with opt := BitVec.ofBool inc }
  | .frmRtu => opFields 0x11
  | .frmAsc => opFields 0x12
  | .dfrTcp chk => { opFields 0x18 with opt := BitVec.ofBool chk }
  | .dfrRtu => opFields 0x19
  | .dfrAsc => opFields 0x1A
  | .rxRst => opFields 0x20
  | .rxApp b => { opFields 0x21 with imm8 := b }
  | .valPack t o => { opFields 0x30 with type := t.code, order := o.code }
  | .valUnpack t o => { opFields 0x31 with type := t.code, order := o.code }
  | .srst => opFields 0xFF

theorem fieldsOf_encode (i : Instr) : fieldsOf (encode i) = i.fields := by
  cases i
  case crcUpd b | lrcUpd b | rxApp b => revert b; decide
  case frmTcp b | dfrTcp b => cases b <;> rfl
  case valPack t o | valUnpack t o => cases t <;> cases o <;> rfl
  all_goals rfl

theorem fieldsOf_setWidth (op : BitVec 8) : fieldsOf (op.setWidth 32) = opFields op := by
  revert op; decide

/-! What each of R87's masks leaves of a word. -/

theorem fieldsOf_fullMask : fieldsOf 0xFFFFFFFF =
    ⟨.allOnes 8, .allOnes 8, .allOnes 3, .allOnes 1, .allOnes 2, .allOnes 2, .allOnes 1, .allOnes 7⟩ := rfl

section
variable (f : Fields)

theorem Fields.and_fullMask : f.and (fieldsOf 0xFFFFFFFF) = f := by
  simp only [Fields.and, fieldsOf_fullMask, BitVec.and_allOnes]

theorem Fields.and_imm8Mask : f.and (fieldsOf 0xFFFF00FF) = { f with imm8 := 0 } := by
  have hmask : fieldsOf 0xFFFF00FF = { fieldsOf 0xFFFFFFFF with imm8 := 0 } := rfl
  rw [hmask, fieldsOf_fullMask]
  simp only [Fields.and, BitVec.and_allOnes, BitVec.ofNat_eq_ofNat, BitVec.and_zero]

theorem Fields.and_optMask : f.and (fieldsOf 0xFEFFFFFF) = { f with opt := 0 } := by
  have hmask : fieldsOf 0xFEFFFFFF = { fieldsOf 0xFFFFFFFF with opt := 0 } := rfl
  rw [hmask, fieldsOf_fullMask]
  simp only [Fields.and, BitVec.and_allOnes, BitVec.ofNat_eq_ofNat, BitVec.and_zero]

theorem Fields.and_typeMask : f.and (fieldsOf 0xFFC8FFFF) = { f with type := 0, order := 0 } := by
  have hmask : fieldsOf 0xFFC8FFFF = { fieldsOf 0xFFFFFFFF with type := 0, order := 0 } := rfl
  rw [hmask, fieldsOf_fullMask]
  simp only [Fields.and, BitVec.and_allOnes, BitVec.ofNat_eq_ofNat, BitVec.and_zero]

end

/-! The four kinds of rows in R87, by the operands the command takes. -/

/-- The row of a command with no operand. -/
def plainRow (op : BitVec 8) (i : Instr) : Row :=
  { pat := op.setWidth 32, mask := 0xFFFFFFFF, cmd := fun _ => .ok i }

/-- The row of a command with a byte in IMM8 (R83). -/
def imm8Row (op : BitVec 8) (mk : Byte → Instr) : Row :=
  { pat := op.setWidth 32, mask := 0xFFFF00FF, cmd := fun f => .ok (mk f.imm8) }

/-- The row of a command with an option in OPT (R86). -/
def optRow (op : BitVec 8) (mk : Bool → Instr) : Row :=
  { pat := op.setWidth 32, mask := 0xFEFFFFFF, cmd := fun f => .ok (mk (f.opt == 1)) }

/-- The row of a command with a value type in TYPE and a byte order in ORDER (R84, R85). -/
def typeRow (op : BitVec 8) (mk : ValType → ByteOrder → Instr) : Row :=
  { pat := op.setWidth 32, mask := 0xFFC8FFFF, cmd := fun f => withType f mk }

theorem rows_eq : rows =
    [plainRow 0x01 .crcInit, imm8Row 0x02 .crcUpd, plainRow 0x03 .lrcInit, imm8Row 0x04 .lrcUpd, optRow 0x10 .frmTcp,
      plainRow 0x11 .frmRtu, plainRow 0x12 .frmAsc, optRow 0x18 .dfrTcp, plainRow 0x19 .dfrRtu, plainRow 0x1A .dfrAsc,
      plainRow 0x20 .rxRst, imm8Row 0x21 .rxApp, typeRow 0x30 .valPack, typeRow 0x31 .valUnpack, plainRow 0xFF .srst] :=
  rfl

/-- A row accepts a word, split into its fields, as the command `i`. -/
def Row.Accepts (r : Row) (f : Fields) (i : Instr) : Prop :=
  f.and (fieldsOf r.mask) = fieldsOf r.pat ∧ r.cmd f = .ok i

section
variable {op : BitVec 8} (f : Fields) (i : Instr)

theorem plainRow_accepts (i₀ : Instr) : (plainRow op i₀).Accepts f i ↔ i = i₀ ∧ f = opFields op := by
  rw [Row.Accepts, plainRow, f.and_fullMask, fieldsOf_setWidth, Except.ok.injEq, eq_comm (a := i), and_comm]

theorem imm8Row_accepts (mk : Byte → Instr) :
    (imm8Row op mk).Accepts f i ↔ ∃ b, i = mk b ∧ f = { opFields op with imm8 := b } := by
  simp only [Row.Accepts, imm8Row, f.and_imm8Mask, fieldsOf_setWidth, Except.ok.injEq]
  constructor
  · rintro ⟨hf, rfl⟩
    exact ⟨_, rfl, by rw [← hf]⟩
  · rintro ⟨b, rfl, rfl⟩
    exact ⟨rfl, rfl⟩

theorem optRow_accepts (mk : Bool → Instr) :
    (optRow op mk).Accepts f i ↔ ∃ b, i = mk b ∧ f = { opFields op with opt := BitVec.ofBool b } := by
  simp only [Row.Accepts, optRow, f.and_optMask, fieldsOf_setWidth, Except.ok.injEq]
  constructor
  · rintro ⟨hf, rfl⟩
    exact ⟨_, rfl, by rw [← hf, ← (beq_one_eq_iff f.opt _).1 rfl]⟩
  · rintro ⟨b, rfl, rfl⟩
    exact ⟨rfl, congrArg mk ((beq_one_eq_iff _ b).2 rfl)⟩

theorem withType_eq_ok_iff (mk : ValType → ByteOrder → Instr) :
    withType f mk = .ok i ↔ ∃ t o, i = mk t o ∧ f.type = t.code ∧ f.order = o.code := by
  simp only [← ValType.ofCode_eq_some_iff, ← ByteOrder.ofCode_eq_iff, withType]
  cases ValType.ofCode f.type <;> simp [eq_comm]

theorem typeRow_accepts (mk : ValType → ByteOrder → Instr) :
    (typeRow op mk).Accepts f i ↔ ∃ t o, i = mk t o ∧ f = { opFields op with type := t.code, order := o.code } := by
  simp only [Row.Accepts, typeRow, f.and_typeMask, fieldsOf_setWidth, withType_eq_ok_iff]
  constructor
  · rintro ⟨hf, t, o, rfl, ht, ho⟩
    exact ⟨t, o, rfl, by rw [← hf, ← ht, ← ho]⟩
  · rintro ⟨t, o, rfl, rfl⟩
    exact ⟨rfl, t, o, rfl, rfl, rfl⟩

/-- Some row accepts a word as the command `i` exactly when the word's fields are the command's. -/
theorem exists_row_accepts_iff : (∃ r ∈ rows, r.Accepts f i) ↔ f = i.fields := by
  simp only [rows_eq, List.exists_mem_cons_iff, List.not_mem_nil, false_and, exists_false, or_false,
    plainRow_accepts, imm8Row_accepts, optRow_accepts, typeRow_accepts]
  cases i <;> simp [Instr.fields]

end

/-! The decoder (R88). -/

theorem nodup_rowOps : (rows.map fun r => (fieldsOf r.pat).op).Nodup := by decide

/-- The first row that hits a word is the only one: each row has an OP of its own. -/
theorem find?_rows_of_hits {r : Row} (hr : r ∈ rows) {c : Word32} (h : r.hits c = true) :
    rows.find? (fun r => r.hits c) = some r := by
  cases hf : rows.find? (fun r => r.hits c) with
  | none => exact absurd h (List.find?_eq_none.1 hf r hr)
  | some r' =>
    have hr' := List.mem_of_find?_eq_some hf
    have h' : r'.hits c = true := List.find?_some (p := (Row.hits · c)) hf
    have hop : (fieldsOf r'.pat).op = (fieldsOf r.pat).op :=
      (Row.op_of_hits hr' h').symm.trans (Row.op_of_hits hr h)
    rw [List.inj_on_of_nodup_map nodup_rowOps hr' hr hop]

theorem decode_eq_ok_iff (c : Word32) (i : Instr) : decode c = .ok i ↔ fieldsOf c = i.fields := by
  rw [← exists_row_accepts_iff]
  constructor
  · intro h
    unfold decode at h
    split at h
    next r hf =>
      have hhit : r.hits c = true := List.find?_some (p := (Row.hits · c)) hf
      exact ⟨r, List.mem_of_find?_eq_some hf, (r.hits_iff c).1 hhit, h⟩
    next => exact nomatch h
  · rintro ⟨r, hr, hhit, hcmd⟩
    rw [decode, find?_rows_of_hits hr ((r.hits_iff c).2 hhit)]
    exact hcmd

/-- Decoding the word of a command gives the command back, every operand included. -/
theorem decode_encode (i : Instr) : decode (encode i) = .ok i := (decode_eq_ok_iff _ i).2 (fieldsOf_encode i)

/-- A word that decodes is the word of its command: the two have the same fields. -/
theorem encode_of_decode {c : Word32} {i : Instr} (h : decode c = .ok i) : encode i = c :=
  eq_of_fieldsOf ((fieldsOf_encode i).trans ((decode_eq_ok_iff c i).1 h).symm)

/-! Well-formed words (R82, R84, R89). -/

theorem Instr.fields_wellFormed (i : Instr) : i.fields.wellFormed = true := by
  cases i
  case valPack t o | valUnpack t o => cases t <;> rfl
  all_goals rfl

/-- Every assigned OP is a command's, with any operands in the fields it uses and 0 in the others. -/
theorem exists_fields_eq {op : BitVec 8} (h : opAssigned op = true) (b : Byte) (t : ValType) (o : ByteOrder)
    (opt : Bool) : ∃ i : Instr, i.fields = { opFields op with
      imm8 := if usesImm8 op then b else 0
      type := if usesType op then t.code else 0
      order := if usesType op then o.code else 0
      opt := if usesOpt op then BitVec.ofBool opt else 0 } := by
  simp only [opAssigned, List.contains_iff_mem, List.mem_cons, List.not_mem_nil, or_false] at h
  rcases h with rfl | rfl | rfl | rfl | rfl | rfl | rfl | rfl | rfl | rfl | rfl | rfl | rfl | rfl | rfl
  exacts [⟨.crcInit, rfl⟩, ⟨.crcUpd b, rfl⟩, ⟨.lrcInit, rfl⟩, ⟨.lrcUpd b, rfl⟩, ⟨.frmTcp opt, rfl⟩, ⟨.frmRtu, rfl⟩,
    ⟨.frmAsc, rfl⟩, ⟨.dfrTcp opt, rfl⟩, ⟨.dfrRtu, rfl⟩, ⟨.dfrAsc, rfl⟩, ⟨.rxRst, rfl⟩, ⟨.rxApp b, rfl⟩,
    ⟨.valPack t o, rfl⟩, ⟨.valUnpack t o, rfl⟩, ⟨.srst, rfl⟩]

/-- A field that is 0 where it is not used. -/
theorem eq_ite_of_or {α : Type} {c : Bool} {x z : α} (h : c = true ∨ x = z) : x = if c then x else z := by
  split
  · rfl
  next hc => exact h.resolve_left hc

/-- The well-formed words are the commands' words. -/
theorem Fields.wellFormed_iff (f : Fields) : f.wellFormed = true ↔ ∃ i : Instr, f = i.fields := by
  constructor
  · obtain ⟨op, imm8, type, res19, order, res22, opt, res25⟩ := f
    intro h
    simp only [Fields.wellFormed, Fields.reservedZero, Fields.unusedZero, Fields.typeLegal, Bool.and_eq_true,
      Bool.or_eq_true, bne_iff_ne, beq_iff_eq] at h
    obtain ⟨⟨⟨hop, ⟨rfl, rfl⟩, rfl⟩, ⟨himm8, htypeOrder⟩, hopt⟩, htype⟩ := h
    obtain ⟨t, rfl⟩ := ValType.exists_code htype
    obtain ⟨o, rfl⟩ : ∃ o : ByteOrder, o.code = order := ⟨_, ((ByteOrder.ofCode_eq_iff order _).1 rfl).symm⟩
    obtain ⟨b, rfl⟩ : ∃ b : Bool, BitVec.ofBool b = opt := ⟨_, ((beq_one_eq_iff opt _).1 rfl).symm⟩
    obtain ⟨i, hi⟩ := exists_fields_eq hop imm8 t o b
    refine ⟨i, ?_⟩
    rw [hi, ← eq_ite_of_or himm8, ← eq_ite_of_or (htypeOrder.imp_right And.left),
      ← eq_ite_of_or (htypeOrder.imp_right And.right), ← eq_ite_of_or hopt]
    rfl
  · rintro ⟨i, rfl⟩
    exact i.fields_wellFormed

/-- The illegal words are the ill-formed ones. -/
theorem decode_eq_error_iff (c : Word32) : (∃ e, decode c = .error e) ↔ (fieldsOf c).wellFormed = false := by
  rw [← Bool.not_eq_true, Fields.wellFormed_iff]
  simp only [← decode_eq_ok_iff]
  cases decode c <;> simp

/-! The obligations. -/

/-- Settles O1: a word decodes to the command whose fields it has, and the encoder gives a command its fields. -/
theorem decodeOfEncodeIsTheCommand : Obligations.DecodeOfEncodeIsTheCommand := by
  unfold Obligations.DecodeOfEncodeIsTheCommand
  exact decode_encode

/-- Settles O2: two words with the same fields are the same word. -/
theorem encodeOfDecodeIsTheWord : Obligations.EncodeOfDecodeIsTheWord := by
  unfold Obligations.EncodeOfDecodeIsTheWord
  exact fun _ _ h => encode_of_decode h

/-- Settles O4: a row that hits a word has the word's OP, and no two rows have the same OP. -/
theorem atMostOneRowHitsAWord : Obligations.AtMostOneRowHitsAWord := by
  unfold Obligations.AtMostOneRowHitsAWord
  intro c
  calc (rows.filter fun r => r.hits c).length
      = rows.countP fun r => r.hits c := List.countP_eq_length_filter.symm
    _ ≤ rows.countP fun r => (fieldsOf r.pat).op == (fieldsOf c).op :=
        List.countP_mono_left fun r hr h => beq_iff_eq.2 (Row.op_of_hits hr h).symm
    _ = (rows.map fun r => (fieldsOf r.pat).op).count (fieldsOf c).op := by rw [List.count, List.countP_map]; rfl
    _ ≤ 1 := List.nodup_iff_count_le_one.1 nodup_rowOps _

end Sys2Proof
end

section
/-! The engine's turn as a step: the latched word's command, or the report of an illegal word (R88, R89, R226); and the
run of a WAIT up to it (R96). -/

namespace Sys2Proof.Machine

section
variable {s : State} (hb : s.busy = true) (hw : s.wait = 0)
include hb hw

theorem step_of_decode {i : Instr} (hd : decode s.cmdlatch = .ok i) : step s = exec i s := by
  rw [step_ready ((engineReady_iff s).2 ⟨hb, hw⟩), hd]

theorem step_of_illegal {e : Illegal} (hd : decode s.cmdlatch = .error e) :
    step s = .next (withResult s .illegalCmd) := by
  rw [step_ready ((engineReady_iff s).2 ⟨hb, hw⟩), hd]
  rfl

end

theorem withFetchWord_cmdlatch (s : State) (w : Nat) : (s.withFetchWord 32 w).cmdlatch = BitVec.ofNat 32 w :=
  BitVec.eq_of_toNat_eq (by simp [State.withFetchWord, withCommand])

/-! A WAIT's steps. -/

section
variable {s : State} {rest : List HostOp} (h : s.host = .wait :: rest)
include h

/-- While the command is in progress a WAIT reads STATUS and stays. -/
theorem step_busy_wait (hb : s.busy = true) (hw : 0 < s.wait) :
    step s = .next (tick (logRead s (statusWord s))) :=
  (step_busy hb hw h).trans rfl

/-- Once BUSY reads 0 a WAIT ends with that read. -/
theorem step_idle_wait (hb : s.busy = false) :
    step s = .next { s with host := rest, reads := s.reads ++ [statusWord s] } := by
  rw [step_idle h hb, popHost_eq h]
  rfl

end

/-- With `n` steps of LATENCY left, a WAIT reads the same STATUS `n` times and then the command completes. -/
theorem run_busy_wait {rest : List HostOp} (n : Nat) {s : State} (h : s.host = .wait :: rest) (hb : s.busy = true)
    (hn : s.wait = n) : core.run (n + 1) s =
      step { s with wait := 0, reads := s.reads ++ List.replicate n (statusWord s) } := by
  induction n generalizing s with
  | zero =>
    have hs : s = { s with wait := 0, reads := s.reads ++ List.replicate 0 (statusWord s) } := by
      rw [List.replicate_zero, List.append_nil, ← hn]
    rw [← hs, run_one]
  | succ n ih =>
    have hstep := step_busy_wait h hb (by omega)
    have hwait : (tick (logRead s (statusWord s))).wait = n := by simp [hn]
    refine (run_succ_next hstep).trans ((ih (s := tick (logRead s (statusWord s))) h hb hwait).trans ?_)
    rw [List.replicate_succ, ← List.singleton_append, ← List.append_assoc]
    rfl

/-! The obligations. -/

/-- Settles O3: the illegal words are the ill-formed ones, and completing one writes ERRCODE and BUSY only. -/
theorem illegalWordsReportAndChangeNothing : Obligations.IllegalWordsReportAndChangeNothing := by
  unfold Obligations.IllegalWordsReportAndChangeNothing
  refine ⟨decode_eq_error_iff, fun s hb hw hword => ?_⟩
  obtain ⟨e, he⟩ := (decode_eq_error_iff s.cmdlatch).2 hword
  exact step_of_illegal hb hw he

/-- Settles O58: by induction on what is left of LATENCY, and the WAIT's last step. -/
theorem waitingHostSeesTheCompletion : Obligations.WaitingHostSeesTheCompletion := by
  unfold Obligations.WaitingHostSeesTheCompletion
  intro s rest h
  exact ⟨fun hb => run_busy_wait s.wait h hb rfl, step_idle_wait h⟩

/-- Settles O5: the listed commands' words by `decode_encode`, the illegal ones by running the decoder. -/
theorem representativeWordsDecode : Obligations.RepresentativeWordsDecode := by
  unfold Obligations.RepresentativeWordsDecode
  exact ⟨decode_encode (.crcUpd 0x0A), decode_encode (.lrcUpd 0xF2), decode_encode (.rxApp 0xC5),
    decode_encode (.frmTcp true), decode_encode (.dfrTcp true), decode_encode (.valPack .u32 .bews),
    decode_encode (.valUnpack .f64 .le), decode_encode (.valPack .bool .be), rfl, rfl, rfl⟩

/-- Settles O6: the engine is ready, so the step is the latched word's command. -/
theorem stepRunsTheDecodedCommand : Obligations.StepRunsTheDecodedCommand := by
  unfold Obligations.StepRunsTheDecodedCommand
  refine ⟨fun s i hb hw hd => step_of_decode hb hw hd, fun s w i hd => step_of_decode rfl rfl ?_⟩
  rwa [withFetchWord_cmdlatch]

end Sys2Proof.Machine
end

section
/-! The checksum functions (R100 to R106) and the commands that accumulate them byte by byte (R110 to R113). -/

namespace Sys2Proof.Machine

/-! A run of one accumulator's commands. -/

/-- Commands that take the bytes of a sequence in turn, each a step of the same accumulator: the run is a fold. -/
theorem execAll_map_of_step {α : Type} {mk : Byte → Instr} {state : α → State} {f : α → Byte → α}
    (h : ∀ a b, exec (mk b) (state a) = .next (state (f a b))) (bs : List Byte) (a : α) :
    execAll (bs.map mk) (state a) = .next (state (bs.foldl f a)) := by
  induction bs generalizing a with
  | nil => rfl
  | cons b bs ih => rw [List.map_cons, execAll_cons_next (h a b), ih, List.foldl_cons]

/-- A completed accumulator command's state, with the value `c` in CRC. -/
def withCrc (s : State) (c : Word16) : State := withResult { s with crc := c } .ok

/-- A completed accumulator command's state, with the value `x` in SUM. -/
def withSum (s : State) (x : Byte) : State := withResult { s with sum := x } .ok

theorem exec_crcInit (s : State) : exec .crcInit s = .next (withCrc s 0xFFFF#16) := rfl

theorem exec_crcUpd (s : State) (c : Word16) (b : Byte) :
    exec (.crcUpd b) (withCrc s c) = .next (withCrc s (crcByte c b)) := rfl

theorem exec_lrcInit (s : State) : exec .lrcInit s = .next (withSum s 0#8) := rfl

theorem exec_lrcUpd (s : State) (x b : Byte) : exec (.lrcUpd b) (withSum s x) = .next (withSum s (x + b)) := rfl

theorem execAll_crcUpd (s : State) (bs : List Byte) :
    execAll (.crcInit :: bs.map .crcUpd) s = .next (withCrc s (crc16 bs)) := by
  rw [execAll_cons_next (exec_crcInit s), execAll_map_of_step (exec_crcUpd s), crc16]

/-! The byte sum and its two's complement (R104). -/

theorem foldl_add_eq_lrcSum (bs : List Byte) (x : Byte) : bs.foldl (· + ·) x = x + lrcSum bs := by
  induction bs generalizing x with
  | nil => exact (BitVec.add_zero x).symm
  | cons b bs ih => rw [List.foldl_cons, ih, ← List.singleton_append, lrcSum_append, lrcSum_singleton, BitVec.add_assoc]

theorem execAll_lrcUpd (s : State) (bs : List Byte) :
    execAll (.lrcInit :: bs.map .lrcUpd) s = .next (withSum s (lrcSum bs)) := by
  rw [execAll_cons_next (exec_lrcInit s), execAll_map_of_step (exec_lrcUpd s), foldl_add_eq_lrcSum, BitVec.zero_add]

theorem lrcOfSum_eq_neg (x : Byte) : lrcOfSum x = -x :=
  BitVec.eq_of_toNat_eq (by rw [lrcOfSum_toNat, BitVec.toNat_neg])

/-- The LRC register's bits [15:8] (R27). -/
theorem lrcWord_field (s : State) : (lrcWord s).extractLsb' 8 8 = lrcOfSum s.sum := by
  rw [lrcWord, BitVec.extractLsb'_setWidth_of_le (by decide)]
  exact hi8_be16 _ _

theorem lrcWord_of_sum_zero {s : State} (h : s.sum = 0) : lrcWord s = 0 := by
  rw [lrcWord, h]
  decide

/-! The obligations. -/

/-- Settles O12: the completions by running the commands, the words by `decode_encode`. -/
theorem accumulatorCommandsComplete : Obligations.AccumulatorCommandsComplete := by
  unfold Obligations.AccumulatorCommandsComplete
  intro s b
  have hsum : BitVec.ofNat 8 ((s.sum.toNat + b.toNat) % 256) = s.sum + b := BitVec.eq_of_toNat_eq (by simp)
  rw [hsum]
  exact ⟨rfl, rfl, rfl, rfl, Bool.and_false _, lrcWord_of_sum_zero rfl, decode_encode .crcInit, decode_encode .lrcInit,
    decode_encode (.crcUpd b), decode_encode (.lrcUpd b)⟩

/-- Settles O13: the register after `k` shifts is the iterate that `crcByte` takes at 8. -/
theorem crcStepShiftsEightTimes : Obligations.CrcStepShiftsEightTimes := by
  unfold Obligations.CrcStepShiftsEightTimes
  refine ⟨fun c b => ⟨fun k => crcShift^[k] (c ^^^ b.setWidth 16), rfl, rfl, fun k _ => ?_⟩, by decide, by decide⟩
  exact Function.iterate_succ_apply' crcShift k _

/-- Settles O14: the run folds `crcByte` from 0xFFFF, which is `crc16`. -/
theorem crcUpdSequenceComputesCrc : Obligations.CrcUpdSequenceComputesCrc := by
  unfold Obligations.CrcUpdSequenceComputesCrc
  exact execAll_crcUpd

/-- Settles O15: the run adds the bytes to a zero SUM. -/
theorem lrcUpdSequenceComputesLrc : Obligations.LrcUpdSequenceComputesLrc := by
  unfold Obligations.LrcUpdSequenceComputesLrc
  intro s bs
  exact ⟨withSum s (lrcSum bs), execAll_lrcUpd s bs, rfl, BitVec.toNat_ofNat .., lrcWord_toNat _, lrcWord_field _⟩

/-- Settles O16: the two bytes are the register's own. -/
theorem crcResidueIsZero : Obligations.CrcResidueIsZero := by
  unfold Obligations.CrcResidueIsZero
  intro s
  rw [crc16_append]
  exact (crcByte_crcByte_eq_zero ..).2 (be16_hi8_lo8 _).symm

/-- Settles O17: the byte that brings a sum to zero is its negation. -/
theorem lrcByteIsTheOneThatSumsToZero : Obligations.LrcByteIsTheOneThatSumsToZero := by
  unfold Obligations.LrcByteIsTheOneThatSumsToZero
  intro s x
  rw [lrcSum_append, lrcSum_singleton, lrc, lrcOfSum_eq_neg]
  exact add_eq_zero_iff_eq_neg'

/-- Settles O18: a CRC step is injective in its byte, and the steps after it are injective in the register. -/
theorem crcDetectsEverySingleByteError : Obligations.CrcDetectsEverySingleByteError := by
  unfold Obligations.CrcDetectsEverySingleByteError
  intro p q a b hab h
  rw [crc16_append, crc16_append, List.foldl_cons, List.foldl_cons] at h
  exact hab (crcByte_inj_byte (foldl_crcByte_inj q h))

end Sys2Proof.Machine
end

section
/-! The RTU and ASCII frames as FRM.RTU and FRM.ASC leave them in FBUF (R130, R138 to R144). -/

namespace Sys2Proof.Machine

/-- A frame just put into FBUF, with its length in FLEN (R130). -/
theorem frame_of_mem {s t : State} {f : List Byte} (hm : t.mem = Memory.writeBytes s.mem (Buffer.fbuf.addr 0) f)
    (hl : t.flen = BitVec.ofNat 10 f.length) (h : f.length < 1024) :
    t.flen.toNat = f.length ∧ (∀ j, j < f.length → byteOf t .fbuf j = some (byteAt f j)) ∧
      SameOutside s t .fbuf f.length := by
  obtain ⟨hlen, hbytes⟩ := isFrame_of_mem hm hl h
  exact ⟨hlen.symm, hbytes, sameOutside_of_mem hm⟩

theorem byteAt_rtuFrame_zero (u : Byte) (p : List Byte) : byteAt (rtuFrame u p) 0 = u := rfl

theorem byteAt_rtuFrame_pdu (u : Byte) (p : List Byte) {j : Nat} (h : j < p.length) :
    byteAt (rtuFrame u p) (1 + j) = byteAt p j := by
  rw [rtuFrame, List.cons_append, Nat.add_comm, byteAt_cons_succ, byteAt_append_left h]

theorem byteAt_ascFrame_zero (u : Byte) (p : List Byte) : byteAt (ascFrame u p) 0 = 0x3A := rfl

/-- Settles O20: the stored frame is `rtuFrame`, and each offset of R139's layout is one of its bytes. -/
theorem frmRtuBuildsTheRtuFrame : Obligations.FrmRtuBuildsTheRtuFrame := by
  unfold Obligations.FrmRtuBuildsTheRtuFrame
  intro s p h
  have hrun := exec_frmRtu_next h
  obtain ⟨⟨hplen, hpdu⟩, -⟩ := h
  have hmax : p.length < 512 := hplen ▸ s.plen.isLt
  have hl := length_rtuFrame s.unit p
  obtain ⟨hflen, hbytes, hout⟩ := frame_of_mem (s := s)
    (t := withResult { putFrame s (rtuFrame s.unit p) with crc := rtuCrc s.unit p } .ok) rfl rfl (by omega)
  obtain ⟨hlo, hhi⟩ := byteAt_rtuFrame_end s.unit p
  rw [hl] at hflen hbytes hout
  rw [← hplen]
  refine ⟨_, hrun, rfl, hflen, ?_, fun j hj => ?_, ?_, ?_, hout⟩
  · rw [hbytes 0 (by omega), byteAt_rtuFrame_zero]
  · rw [hbytes (1 + j) (by omega), byteAt_rtuFrame_pdu _ _ hj, hpdu j hj]
  · rw [hbytes (p.length + 1) (by omega), hlo, rtuCrc]
  · rw [hbytes (p.length + 2) (by omega), hhi, rtuCrc]

/-- Settles O21: the stored frame is `ascFrame`, and each offset of R144's layout is one of its bytes. -/
theorem frmAscBuildsTheAsciiFrame : Obligations.FrmAscBuildsTheAsciiFrame := by
  unfold Obligations.FrmAscBuildsTheAsciiFrame
  intro s p h
  have hrun := exec_frmAsc_next h
  have hmax := h.length_le
  obtain ⟨⟨hplen, -⟩, -⟩ := h
  have hl := length_ascFrame s.unit p
  obtain ⟨hflen, hbytes, hout⟩ := frame_of_mem (s := s)
    (t := withResult { putFrame s (ascFrame s.unit p) with sum := lrcSum (s.unit :: p) } .ok) rfl rfl (by omega)
  obtain ⟨hcr, hlf⟩ := byteAt_ascFrame_end s.unit p
  rw [hl] at hflen hbytes hout
  rw [← hplen]
  refine ⟨_, hrun, rfl, hflen, ?_, fun j hj => ?_, ?_, ?_, hout⟩
  · rw [hbytes 0 (by omega), byteAt_ascFrame_zero]
  · obtain ⟨hhigh, hlow⟩ := byteAt_ascFrame s.unit p j hj
    exact ⟨by rw [hbytes (1 + 2 * j) (by omega), hhigh]; rfl, by rw [hbytes (2 + 2 * j) (by omega), hlow]; rfl⟩
  · rw [hbytes (2 * p.length + 5) (by omega), hcr]
  · rw [hbytes (2 * p.length + 6) (by omega), hlf]

end Sys2Proof.Machine
end

section
/-! The MBAP frame as FRM.TCP leaves it in FBUF (R134 to R136), and the hex characters of an ASCII frame (R143, R158). -/

namespace Sys2Proof.Machine

/-! A word's two bytes as numbers (R10). -/

theorem hi8_lo8_toNat (w : Word16) : 256 * (hi8 w).toNat + (lo8 w).toNat = w.toNat := by
  rw [← be16_toNat, be16_hi8_lo8]

theorem hi8_ofNat_of_lt {n : Nat} (h : n < 256) : hi8 (BitVec.ofNat 16 n) = 0 := by
  have hsum := hi8_lo8_toNat (BitVec.ofNat 16 n)
  rw [BitVec.toNat_ofNat, Nat.mod_eq_of_lt (by omega)] at hsum
  exact BitVec.eq_of_toNat_eq (by simp; omega)

theorem lo8_ofNat (n : Nat) : lo8 (BitVec.ofNat 16 n) = BitVec.ofNat 8 n :=
  BitVec.eq_of_toNat_eq (by simp [lo8])

/-! The frame's bytes (R135): the seven of the header hold by `rfl`, those of the PDU follow. -/

theorem byteAt_mbapFrame_pdu (tid : Word16) (u : Byte) (p : List Byte) (j : Nat) :
    byteAt (mbapFrame tid u p) (7 + j) = byteAt p j := by
  rw [mbapFrame, byteAt_append_right (by simp)]
  simp

theorem txTid_toNat (inc : Bool) (s : State) :
    (txTid inc s).toNat = if inc then (s.tid.toNat + 1) % 65536 else s.tid.toNat := by
  cases inc with
  | false => rfl
  | true => exact BitVec.toNat_add s.tid 1

/-- Settles O19: the stored frame is `mbapFrame`, and each offset of R135's layout is one of its bytes. -/
theorem frmTcpBuildsTheMbapFrame : Obligations.FrmTcpBuildsTheMbapFrame := by
  unfold Obligations.FrmTcpBuildsTheMbapFrame
  intro inc s p h
  have hrun := exec_frmTcp_next inc h
  have hmax := h.length_le
  obtain ⟨⟨hplen, hpdu⟩, -⟩ := h
  have hl := length_mbapFrame (txTid inc s) s.unit p
  obtain ⟨hflen, hbytes, hout⟩ := frame_of_mem (s := s)
    (t := withResult { putFrame s (mbapFrame (txTid inc s) s.unit p) with tid := txTid inc s } .ok) rfl rfl (by omega)
  rw [hl] at hflen hbytes hout
  rw [← hplen]
  refine ⟨_, hrun, rfl, txTid_toNat inc s, hflen, hbytes 0 (by omega), hbytes 1 (by omega), hbytes 2 (by omega),
    hbytes 3 (by omega), ?_, ?_, hbytes 6 (by omega), fun j hj => ?_, hout⟩
  · exact (hbytes 4 (by omega)).trans (congrArg some (hi8_ofNat_of_lt (by omega)))
  · exact (hbytes 5 (by omega)).trans (congrArg some (lo8_ofNat _))
  · rw [hbytes (7 + j) (by omega), byteAt_mbapFrame_pdu, hpdu j hj]

/-! Hex characters. -/

theorem hexChar_toNat (n : BitVec 4) :
    (hexChar n).toNat = if n.toNat ≤ 9 then 0x30 + n.toNat else 0x41 + (n.toNat - 10) := by
  have hn := n.isLt
  unfold hexChar
  split
  · rw [BitVec.toNat_ofNat, Nat.mod_eq_of_lt (by omega)]
  · rw [BitVec.toNat_ofNat, Nat.mod_eq_of_lt (by omega)]

theorem hexVal_toNat (ch : Byte) : (hexVal ch).map BitVec.toNat =
    if 0x30 ≤ ch.toNat ∧ ch.toNat ≤ 0x39 then some (ch.toNat - 0x30)
    else if 0x41 ≤ ch.toNat ∧ ch.toNat ≤ 0x46 then some (ch.toNat - 0x37)
    else none := by
  unfold hexVal
  split
  · rw [Option.map_some, BitVec.toNat_ofNat, Nat.mod_eq_of_lt (by omega)]
  · split
    · rw [Option.map_some, BitVec.toNat_ofNat, Nat.mod_eq_of_lt (by omega)]
    · rfl

/-- Settles O23: the two functions' values as numbers. -/
theorem hexCharactersAreUppercaseAscii : Obligations.HexCharactersAreUppercaseAscii := by
  unfold Obligations.HexCharactersAreUppercaseAscii
  exact ⟨hexChar_toNat, fun _ => rfl, hexVal_toNat⟩

end Sys2Proof.Machine
end

section
/-! The deframe commands' checks in the order of R229, and what each does with a frame that passes them (R150 to R159). -/

namespace Sys2Proof.Machine

/-! How a command ends, from its rule's result (R224, R226). -/

theorem endsWith_of_raise {i : Instr} {s : State} {c : ErrCode} (h : ruleOf i s = raise c) : EndsWith i s c := by
  rw [EndsWith, exec_eq_complete_ruleOf, h]
  rfl

theorem exec_of_ok {i : Instr} {s u : State} (h : ruleOf i s = .ok u) : exec i s = .next (withResult u .ok) := by
  rw [exec_eq_complete_ruleOf, h, complete_ok]

theorem EndsWith.errcode_eq {i : Instr} {s t : State} {c : ErrCode} (h : EndsWith i s c) (ht : exec i s = .next t) :
    t.errcode = c := by
  obtain rfl := Host.Outcome.next.inj (h.symm.trans ht)
  rfl

/-! The checks on a whole frame, byte by byte. -/

theorem unitMax_lt_iff (n : Nat) : Config.unitMax < n ↔ 248 ≤ n := Iff.rfl

theorem parseTcp_eq (chk : Bool) (s : State) (f : List Byte) : parseTcp chk s f =
    if byteAt f 2 ≠ 0 ∨ byteAt f 3 ≠ 0 then raise .frmHeader
    else if 256 * (byteAt f 4).toNat + (byteAt f 5).toNat ≠ f.length - 6 then raise .frmHeader
    else if 248 ≤ (byteAt f 6).toNat then raise .frmHeader
    else if chk = true ∧ be16 (byteAt f 0) (byteAt f 1) ≠ s.tid then raise .trnTid
    else .ok { commitRx s (byteAt f 6) (slice f 7 f.length) with tid := be16 (byteAt f 0) (byteAt f 1) } := by
  simp only [parseTcp, ne_eq, be16_eq_zero, not_and_or, be16_toNat, unitMax_lt_iff]

theorem parseRtu_eq (s : State) (f : List Byte) : parseRtu s f =
    if lo8 (crc16 (f.take (f.length - 2))) ≠ byteAt f (f.length - 2) ∨
        hi8 (crc16 (f.take (f.length - 2))) ≠ byteAt f (f.length - 1) then raise .frmChecksum
    else if 248 ≤ (byteAt f 0).toNat then raise .frmHeader
    else .ok { commitRx s (byteAt f 0) (slice f 1 (f.length - 2)) with crc := crc16 (f.take (f.length - 2)) } := by
  simp only [parseRtu, slice_zero, ne_eq, be16_eq_iff, not_and_or, or_comm, unitMax_lt_iff]

theorem parseAscBytes_eq (s : State) (d : List Byte) : parseAscBytes s d =
    if lrcSum d ≠ 0 then raise .frmChecksum
    else if 248 ≤ (byteAt d 0).toNat then raise .frmHeader
    else .ok { commitRx s (byteAt d 0) (slice d 1 (d.length - 1)) with sum := lrcSum (d.take (d.length - 1)) } := by
  simp only [parseAscBytes, slice_zero, unitMax_lt_iff]

theorem parseAsc_eq (s : State) (f : List Byte) : parseAsc s f =
    if byteAt f 0 ≠ 0x3A then raise .frmHeader
    else if byteAt f (f.length - 2) ≠ 0x0D ∨ byteAt f (f.length - 1) ≠ 0x0A then raise .frmTerminator
    else if (f.length - 3) % 2 = 1 then raise .frmHex
    else (hexDecode (slice f 1 (f.length - 2))).elim (raise .frmHex) (parseAscBytes s) := by
  unfold parseAsc
  dsimp only
  cases hexDecode (slice f 1 (f.length - 2)) <;> rfl

/-! The digits of an ASCII frame (R158, R159). -/

/-- The characters between ':' and CR LF are the two hex digits of each byte of `d`, in order (R144). -/
def HexBetween (f d : List Byte) : Prop :=
  f.length = 2 * d.length + 3 ∧ ∀ j, j < d.length →
    hexVal (byteAt f (1 + 2 * j)) = some ((byteAt d j).extractLsb' 4 4) ∧
      hexVal (byteAt f (2 + 2 * j)) = some ((byteAt d j).extractLsb' 0 4)

theorem HexBetween.hexDecode_eq {f d : List Byte} (h : HexBetween f d) :
    hexDecode (slice f 1 (f.length - 2)) = some d := by
  obtain ⟨hl, hdigits⟩ := h
  refine hexDecode_some d _ (by rw [length_slice _ _ _ (by omega)]; omega) fun j hj => ?_
  rw [byteAt_slice _ _ _ _ (by omega), byteAt_slice _ _ _ _ (by omega), show 1 + (2 * j + 1) = 2 + 2 * j by omega]
  exact hdigits j hj

theorem hexDecode_of_no_digit {f : List Byte} (h : ∃ j, 1 ≤ j ∧ j ≤ f.length - 3 ∧ hexVal (byteAt f j) = none) :
    hexDecode (slice f 1 (f.length - 2)) = none := by
  obtain ⟨j, h1, h3, hj⟩ := h
  refine hexDecode_none _ ⟨j - 1, by rw [length_slice _ _ _ (by omega)]; omega, ?_⟩
  rw [byteAt_slice _ _ _ _ (by omega), show 1 + (j - 1) = j by omega]
  exact hj

/-! The rules on the current frame. -/

section
variable {s : State} {f : List Byte} (hf : IsFrame s f)
include hf

theorem ruleOf_dfrTcp (chk : Bool) (h8 : 8 ≤ f.length) (h260 : f.length ≤ 260) :
    ruleOf (.dfrTcp chk) s = parseTcp chk s f := readFrame_bind 8 260 hf h8 h260 _

theorem ruleOf_dfrRtu (h4 : 4 ≤ f.length) (h256 : f.length ≤ 256) : ruleOf .dfrRtu s = parseRtu s f :=
  readFrame_bind 4 256 hf h4 h256 _

theorem ruleOf_dfrAsc (h9 : 9 ≤ f.length) (h513 : f.length ≤ 513) : ruleOf .dfrAsc s = parseAsc s f :=
  readFrame_bind 9 513 hf h9 h513 _

/-- DFR.TCP's rule on a valid frame (R151, R152). -/
theorem ruleOf_dfrTcp_ok {chk : Bool} (h8 : 8 ≤ f.length) (h260 : f.length ≤ 260)
    (h2 : byteAt f 2 = 0) (h3 : byteAt f 3 = 0) (hlen : 256 * (byteAt f 4).toNat + (byteAt f 5).toNat = f.length - 6)
    (hunit : (byteAt f 6).toNat ≤ 247) (htid : chk = true → be16 (byteAt f 0) (byteAt f 1) = s.tid) :
    ruleOf (.dfrTcp chk) s =
      .ok { commitRx s (byteAt f 6) (slice f 7 f.length) with tid := be16 (byteAt f 0) (byteAt f 1) } := by
  rw [ruleOf_dfrTcp hf chk h8 h260, parseTcp_eq, if_neg (by simp [h2, h3]), if_neg (not_not.2 hlen), if_neg (by omega),
    if_neg fun h => h.2 (htid h.1)]

/-- DFR.RTU's rule on a frame with a right CRC (R155). -/
theorem ruleOf_dfrRtu_ok (h4 : 4 ≤ f.length) (h256 : f.length ≤ 256)
    (hlo : lo8 (crc16 (f.take (f.length - 2))) = byteAt f (f.length - 2))
    (hhi : hi8 (crc16 (f.take (f.length - 2))) = byteAt f (f.length - 1)) (hunit : (byteAt f 0).toNat ≤ 247) :
    ruleOf .dfrRtu s =
      .ok { commitRx s (byteAt f 0) (slice f 1 (f.length - 2)) with crc := crc16 (f.take (f.length - 2)) } := by
  rw [ruleOf_dfrRtu hf h4 h256, parseRtu_eq, if_neg (by simp [hlo, hhi]), if_neg (by omega)]

/-- DFR.ASC's rule on a valid frame of the bytes `d` (R159). -/
theorem ruleOf_dfrAsc_ok {d : List Byte} (h3 : 3 ≤ d.length) (h255 : d.length ≤ 255) (hd : HexBetween f d)
    (hstart : byteAt f 0 = 0x3A) (hcr : byteAt f (f.length - 2) = 0x0D) (hlf : byteAt f (f.length - 1) = 0x0A)
    (hsum : lrcSum d = 0) (hunit : (byteAt d 0).toNat ≤ 247) :
    ruleOf .dfrAsc s =
      .ok { commitRx s (byteAt d 0) (slice d 1 (d.length - 1)) with sum := lrcSum (d.take (d.length - 1)) } := by
  have hl := hd.1
  rw [ruleOf_dfrAsc hf (by omega) (by omega), parseAsc_eq, if_neg (not_not.2 hstart), if_neg (by simp [hcr, hlf]),
    if_neg (by omega), hd.hexDecode_eq, Option.elim_some, parseAscBytes_eq, if_neg (not_not.2 hsum), if_neg (by omega)]

end

/-- A part of a sequence just put into PBUF, with its length in PLEN (R150). -/
theorem pdu_of_slice {s t : State} {f : List Byte} {i j : Nat}
    (hm : t.mem = Memory.writeBytes s.mem (Buffer.pbuf.addr 0) (slice f i j))
    (hl : t.plen = BitVec.ofNat 9 (slice f i j).length) (hj : j ≤ f.length) (hmax : j - i ≤ 253) :
    t.plen.toNat = j - i ∧ (∀ k, k < j - i → byteOf t .pbuf k = some (byteAt f (i + k))) ∧
      SameOutside s t .pbuf (j - i) := by
  have hlen := length_slice f i j hj
  obtain ⟨hplen, hbytes, hout⟩ := pdu_of_mem hm hl (by omega)
  rw [hlen] at hplen hbytes hout
  exact ⟨hplen, fun k hk => by rw [hbytes k hk, byteAt_slice _ _ _ _ hk], hout⟩

/-! The obligations. -/

/-- Settles O24: every check passes, and the PDU is the frame from offset 7. -/
theorem dfrTcpAcceptsAValidFrame : Obligations.DfrTcpAcceptsAValidFrame := by
  unfold Obligations.DfrTcpAcceptsAValidFrame
  intro chk s f hf h8 h260 h2 h3 hlen hunit htid
  exact ⟨_, exec_of_ok (ruleOf_dfrTcp_ok hf h8 h260 h2 h3 hlen hunit htid), rfl,
    pdu_of_slice rfl rfl le_rfl (by omega)⟩

/-- Settles O25: both checks pass, and the PDU lies between the unit id and the CRC. -/
theorem dfrRtuAcceptsAValidFrame : Obligations.DfrRtuAcceptsAValidFrame := by
  unfold Obligations.DfrRtuAcceptsAValidFrame
  intro s f hf h4 h256 hlo hhi hunit
  rw [show f.length - 3 = f.length - 2 - 1 by omega]
  exact ⟨_, exec_of_ok (ruleOf_dfrRtu_ok hf h4 h256 hlo hhi hunit), rfl,
    pdu_of_slice rfl rfl (by omega) (by omega)⟩

/-- Settles O26: every check passes, and the PDU lies between the unit id and the LRC of the decoded bytes. -/
theorem dfrAscAcceptsAValidFrame : Obligations.DfrAscAcceptsAValidFrame := by
  unfold Obligations.DfrAscAcceptsAValidFrame
  intro s f d hf h3 h255 hl hstart hcr hlf hdigits hsum hunit
  rw [show d.length - 2 = d.length - 1 - 1 by omega]
  exact ⟨_, exec_of_ok (ruleOf_dfrAsc_ok hf h3 h255 ⟨hl, hdigits⟩ hstart hcr hlf hsum hunit), rfl,
    pdu_of_slice rfl rfl (by omega) (by omega)⟩

/-- Settles O27: the first check that fails, in `parseTcp_eq`'s order. -/
theorem dfrTcpRefusesInOrder : Obligations.DfrTcpRefusesInOrder := by
  unfold Obligations.DfrTcpRefusesInOrder
  refine fun chk s => ⟨fun h => endsWith_of_raise (readFrame_bind_length h), fun f hf h8 h260 => ?_⟩
  have hrule := ruleOf_dfrTcp hf chk h8 h260
  rw [parseTcp_eq] at hrule
  split
  next hproto => exact endsWith_of_raise (hrule.trans (if_pos hproto))
  next hproto =>
    rw [if_neg hproto] at hrule
    split
    next hlen => exact endsWith_of_raise (hrule.trans (if_pos hlen))
    next hlen =>
      rw [if_neg hlen] at hrule
      split
      next hunit => exact endsWith_of_raise (hrule.trans (if_pos hunit))
      next hunit =>
        rw [if_neg hunit] at hrule
        exact fun hchk htid => endsWith_of_raise (hrule.trans (if_pos ⟨hchk, htid⟩))

/-- Settles O28: the first check that fails, in `parseRtu_eq`'s order. -/
theorem dfrRtuRefusesInOrder : Obligations.DfrRtuRefusesInOrder := by
  unfold Obligations.DfrRtuRefusesInOrder
  refine fun s => ⟨fun h => endsWith_of_raise (readFrame_bind_length h), fun f hf h4 h256 => ?_⟩
  have hrule := ruleOf_dfrRtu hf h4 h256
  rw [parseRtu_eq] at hrule
  split
  next hcrc => exact endsWith_of_raise (hrule.trans (if_pos hcrc))
  next hcrc =>
    rw [if_neg hcrc] at hrule
    exact fun hunit => endsWith_of_raise (hrule.trans (if_pos hunit))

/-- Settles O29: the first check that fails, in `parseAsc_eq`'s order and then in `parseAscBytes_eq`'s. -/
theorem dfrAscRefusesInOrder : Obligations.DfrAscRefusesInOrder := by
  unfold Obligations.DfrAscRefusesInOrder
  refine fun s => ⟨fun h => endsWith_of_raise (readFrame_bind_length h), fun f hf h9 h513 => ?_⟩
  have hrule := ruleOf_dfrAsc hf h9 h513
  rw [parseAsc_eq] at hrule
  split
  next hstart => exact endsWith_of_raise (hrule.trans (if_pos hstart))
  next hstart =>
    rw [if_neg hstart] at hrule
    split
    next hterm => exact endsWith_of_raise (hrule.trans (if_pos hterm))
    next hterm =>
      rw [if_neg hterm] at hrule
      split
      next hodd => exact endsWith_of_raise (hrule.trans (if_pos hodd))
      next hodd =>
        rw [if_neg hodd] at hrule
        refine ⟨fun hbad => ?_, fun d hl hdigits => ?_⟩
        · rw [hexDecode_of_no_digit hbad] at hrule
          exact endsWith_of_raise hrule
        · rw [HexBetween.hexDecode_eq ⟨hl, hdigits⟩, Option.elim_some, parseAscBytes_eq] at hrule
          split
          next hsum => exact endsWith_of_raise (hrule.trans (if_pos hsum))
          next hsum =>
            rw [if_neg hsum] at hrule
            exact fun hunit => endsWith_of_raise (hrule.trans (if_pos hunit))

end Sys2Proof.Machine
end

section
/-! Framing and then deframing (R160): each frame that is built passes its deframe command's checks, and the PDU taken out
of it is the PDU put in. -/

namespace Sys2Proof.Machine

/-! The PDU's place in each frame. -/

theorem slice_mbapFrame (tid : Word16) (u : Byte) (p : List Byte) :
    slice (mbapFrame tid u p) 7 (mbapFrame tid u p).length = p := by
  simp [slice, mbapFrame]

theorem slice_rtuFrame (u : Byte) (p : List Byte) : slice (rtuFrame u p) 1 ((rtuFrame u p).length - 2) = p := by
  rw [length_rtuFrame, Nat.add_sub_assoc (by decide), slice, take_rtuFrame]
  rfl

theorem take_ascBytes (u : Byte) (p : List Byte) : (ascBytes u p).take (p.length + 1) = u :: p := by
  rw [ascBytes, List.take_append_of_le_length (by simp)]
  simp

theorem slice_ascBytes (u : Byte) (p : List Byte) : slice (ascBytes u p) 1 ((ascBytes u p).length - 1) = p := by
  rw [length_ascBytes, Nat.add_sub_assoc (by decide), slice, take_ascBytes]
  rfl

theorem lrcSum_ascBytes (u : Byte) (p : List Byte) : lrcSum (ascBytes u p) = 0 :=
  (lrcByteIsTheOneThatSumsToZero (u :: p) _).2 rfl

theorem hexBetween_ascFrame (u : Byte) (p : List Byte) : HexBetween (ascFrame u p) (ascBytes u p) := by
  refine ⟨by rw [length_ascFrame, length_ascBytes]; omega, fun j hj => ?_⟩
  rw [length_ascBytes] at hj
  obtain ⟨hhigh, hlow⟩ := byteAt_ascFrame u p j hj
  rw [hhigh, hlow]
  exact ⟨hexVal_hexChar _, hexVal_hexChar _⟩

/-! The round trip. -/

/-- A PDU just put into PBUF, with its length in PLEN, is the current PDU (R150). -/
theorem isPdu_of_mem {s t : State} {p q : List Byte} (hm : t.mem = Memory.writeBytes s.mem (Buffer.pbuf.addr 0) q)
    (hl : t.plen = BitVec.ofNat 9 q.length) (hq : q = p) (h : p.length ≤ 253) : IsPdu t p := by
  subst hq
  obtain ⟨hlen, hbytes, -⟩ := pdu_of_mem hm hl h
  exact ⟨hlen.symm, hbytes⟩

/-- A deframe rule that runs to its end on what a frame command left, with the unit id and the PDU sent. -/
theorem roundTrips_of_rule {tx rx : Instr}
    (h : ∀ s p, CanSend s p → ∃ t u, exec tx s = .next t ∧ t.errcode = .ok ∧ ruleOf rx t = .ok u ∧ u.unit = s.unit ∧
      IsPdu u p) : RoundTrips tx rx := by
  intro s p hs
  obtain ⟨t, u, htx, hok, hrx, hunit, hlen, hbytes⟩ := h s p hs
  obtain ⟨⟨hl, hpdu⟩, -⟩ := hs
  refine ⟨t, _, htx, hok, exec_of_ok hrx, rfl, hunit, BitVec.eq_of_toNat_eq (hlen.symm.trans hl), fun j hj => ?_⟩
  exact (hbytes j (by omega)).trans (hpdu j (by omega)).symm

theorem exec_frmTcp_isFrame {s : State} {p : List Byte} (inc : Bool) (h : CanSend s p) :
    ∃ t, exec (.frmTcp inc) s = .next t ∧ t.errcode = .ok ∧ t.tid = txTid inc s ∧
      IsFrame t (mbapFrame (txTid inc s) s.unit p) := by
  have hmax := h.length_le
  exact ⟨_, exec_frmTcp_next inc h, rfl, rfl, isFrame_of_mem (s := s) rfl rfl (by rw [length_mbapFrame]; omega)⟩

theorem exec_frmRtu_isFrame {s : State} {p : List Byte} (h : CanSend s p) :
    ∃ t, exec .frmRtu s = .next t ∧ t.errcode = .ok ∧ IsFrame t (rtuFrame s.unit p) := by
  have hmax := h.length_le
  exact ⟨_, exec_frmRtu_next h, rfl, isFrame_of_mem (s := s) rfl rfl (by rw [length_rtuFrame]; omega)⟩

theorem exec_frmAsc_isFrame {s : State} {p : List Byte} (h : CanSend s p) :
    ∃ t, exec .frmAsc s = .next t ∧ t.errcode = .ok ∧ IsFrame t (ascFrame s.unit p) := by
  have hmax := h.length_le
  exact ⟨_, exec_frmAsc_next h, rfl, isFrame_of_mem (s := s) rfl rfl (by rw [length_ascFrame]; omega)⟩

theorem roundTrips_tcp (inc : Bool) : RoundTrips (.frmTcp inc) (.dfrTcp inc) := by
  refine roundTrips_of_rule fun s p hs => ?_
  obtain ⟨t, hrun, hok, htid, hframe⟩ := exec_frmTcp_isFrame inc hs
  have hmax := hs.length_le
  obtain ⟨⟨hl, -⟩, hmin, -, hunit⟩ := hs
  have hlen := length_mbapFrame (txTid inc s) s.unit p
  have hfield : 256 * (hi8 (BitVec.ofNat 16 (p.length + 1))).toNat + (lo8 (BitVec.ofNat 16 (p.length + 1))).toNat =
      (mbapFrame (txTid inc s) s.unit p).length - 6 := by
    rw [hi8_lo8_toNat, BitVec.toNat_ofNat, Nat.mod_eq_of_lt (by omega)]
    omega
  have hrule := ruleOf_dfrTcp_ok hframe (by omega) (by omega) rfl rfl hfield hunit
    fun _ : inc = true => (be16_hi8_lo8 _).trans htid.symm
  exact ⟨t, _, hrun, hok, hrule, rfl, isPdu_of_mem rfl rfl (slice_mbapFrame ..) hmax⟩

theorem roundTrips_rtu : RoundTrips .frmRtu .dfrRtu := by
  refine roundTrips_of_rule fun s p hs => ?_
  obtain ⟨t, hrun, hok, hframe⟩ := exec_frmRtu_isFrame hs
  have hmax := hs.length_le
  obtain ⟨⟨hl, -⟩, hmin, -, hunit⟩ := hs
  have hlen := length_rtuFrame s.unit p
  obtain ⟨hlo, hhi⟩ := byteAt_rtuFrame_end s.unit p
  have hcrc : crc16 ((rtuFrame s.unit p).take ((rtuFrame s.unit p).length - 2)) = rtuCrc s.unit p := by
    rw [hlen, Nat.add_sub_assoc (by decide), take_rtuFrame, rtuCrc]
  have hrule := ruleOf_dfrRtu_ok hframe (by omega) (by omega) (by rw [hcrc, hlen]; exact hlo.symm)
    (by rw [hcrc, hlen]; exact hhi.symm) hunit
  exact ⟨t, _, hrun, hok, hrule, rfl, isPdu_of_mem rfl rfl (slice_rtuFrame ..) hmax⟩

theorem roundTrips_asc : RoundTrips .frmAsc .dfrAsc := by
  refine roundTrips_of_rule fun s p hs => ?_
  obtain ⟨t, hrun, hok, hframe⟩ := exec_frmAsc_isFrame hs
  have hmax := hs.length_le
  obtain ⟨⟨hl, -⟩, hmin, -, hunit⟩ := hs
  have hlen := length_ascFrame s.unit p
  have hraw := length_ascBytes s.unit p
  obtain ⟨hcr, hlf⟩ := byteAt_ascFrame_end s.unit p
  have hrule := ruleOf_dfrAsc_ok hframe (by omega) (by omega) (hexBetween_ascFrame s.unit p) rfl
    (by rw [hlen]; exact hcr) (by rw [hlen]; exact hlf) (lrcSum_ascBytes ..) hunit
  exact ⟨t, _, hrun, hok, hrule, rfl, isPdu_of_mem rfl rfl (slice_ascBytes ..) hmax⟩

/-- Settles O31: for each transport the frame that is built is one its deframe command accepts. -/
theorem framingThenDeframingRoundTrips : Obligations.FramingThenDeframingRoundTrips := by
  unfold Obligations.FramingThenDeframingRoundTrips
  exact ⟨roundTrips_tcp, roundTrips_rtu, roundTrips_asc⟩

end Sys2Proof.Machine
end

section
/-! A single corrupted byte of an RTU frame (R155): a frame is accepted only with CRC residue zero (R103), and changing one
byte changes the residue. -/

namespace Sys2Proof.Machine

/-- DFR.RTU's checksum test over the whole frame: it fails exactly on a nonzero residue (R103). -/
theorem parseRtu_of_residue {s : State} {f : List Byte} (h : 2 ≤ f.length) (hcrc : crc16 f ≠ 0) :
    parseRtu s f = raise .frmChecksum := by
  rw [Ne, crc16_eq_zero_iff h, be16_eq_iff, not_and_or] at hcrc
  rw [parseRtu_eq, if_pos hcrc.symm]

theorem crc16_set_ne {f : List Byte} {j : Nat} {x : Byte} (hj : j < f.length) (hx : x ≠ byteAt f j) :
    crc16 (f.set j x) ≠ crc16 f := by
  have hf : f = f.take j ++ byteAt f j :: f.drop (j + 1) := by
    have hbyte : byteAt f j = f[j] := by simp [byteAt, hj]
    rw [hbyte, ← List.drop_eq_getElem_cons hj, List.take_append_drop]
  have hdiff := crcDetectsEverySingleByteError (f.take j) (f.drop (j + 1)) x (byteAt f j) hx
  rw [List.set_eq_take_append_cons_drop, if_pos hj]
  rwa [← hf] at hdiff

/-- One byte of the current frame rewritten: the current frame with that byte set. -/
theorem isFrame_bufWrites_set {s : State} {f : List Byte} (hf : IsFrame s f) {j : Nat} (hj : j < f.length) (x : Byte) :
    IsFrame (bufWrites s .fbuf j [x]) (f.set j x) := by
  obtain ⟨hl, hbytes⟩ := hf
  refine ⟨List.length_set.trans hl, fun k hk => ?_⟩
  rw [List.length_set] at hk
  rw [byteOf_bufWrites]
  split
  next hin =>
    obtain rfl : j = k := by simp at hin; omega
    simp [byteAt, hj]
  next hout =>
    have hne : j ≠ k := by simp at hout; omega
    rw [hbytes k hk, byteAt, byteAt, List.getD_eq_getElem?_getD, List.getD_eq_getElem?_getD, List.getElem?_set_ne hne]

/-- What DFR.RTU accepts: a frame within the bounds, with residue zero. -/
theorem residue_of_dfrRtu_ok {s t : State} {f : List Byte} (hf : IsFrame s f) (ht : exec .dfrRtu s = .next t)
    (hok : t.errcode = .ok) : 4 ≤ f.length ∧ f.length ≤ 256 ∧ crc16 f = 0 := by
  have hno {c : ErrCode} (hc : c ≠ .ok) : ¬ruleOf .dfrRtu s = raise c := fun h =>
    hc ((endsWith_of_raise h).errcode_eq ht ▸ hok)
  have hl := hf.1
  have hbounds : ¬(s.flen.toNat < 4 ∨ 256 < s.flen.toNat) := fun h => hno (by decide) (readFrame_bind_length h)
  refine ⟨by omega, by omega, ?_⟩
  by_contra hcrc
  refine hno (by decide) ((ruleOf_dfrRtu hf ?_ ?_).trans (parseRtu_of_residue ?_ hcrc)) <;> omega

/-- Settles O32: the accepted frame has residue zero, so the changed one has not. -/
theorem dfrRtuRefusesASingleCorruptedByte : Obligations.DfrRtuRefusesASingleCorruptedByte := by
  unfold Obligations.DfrRtuRefusesASingleCorruptedByte
  intro s t f j x hf ht hok hj hx
  obtain ⟨h4, h256, hzero⟩ := residue_of_dfrRtu_ok hf ht hok
  have hcrc : crc16 (f.set j x) ≠ 0 := hzero ▸ crc16_set_ne hj hx
  have hl : (f.set j x).length = f.length := List.length_set
  have hrule := ruleOf_dfrRtu (isFrame_bufWrites_set hf hj x) (by omega) (by omega)
  exact endsWith_of_raise (hrule.trans (parseRtu_of_residue (by omega) hcrc))

end Sys2Proof.Machine
end

section
/-! A single RX.APP (R171): with room in FBUF the byte is stored and counted, otherwise it is dropped with BUF_OVERFLOW. -/

namespace Sys2Proof.Machine

/-- FLEN counts the byte and does not wrap while FBUF has room for it. -/
theorem received_singleton_flen {s : State} (b : Byte) (h : s.flen.toNat < 513) :
    (received s [b]).flen.toNat = s.flen.toNat + 1 :=
  BitVec.toNat_add_of_lt (y := 1#10) (by simp; omega)

theorem received_singleton_mem (s : State) (b : Byte) :
    (received s [b]).mem = Memory.write s.mem (Buffer.fbuf.addr s.flen.toNat) b := rfl

theorem ruleOf_rxApp_full {s : State} (b : Byte) (h : 513 ≤ s.flen.toNat) : ruleOf (.rxApp b) s = raise .bufOverflow :=
  if_pos h

/-- Settles O34: the next state is `received` with one byte, whose memory is one write at FBUF[FLEN]. -/
theorem rxAppAppendsOneByte : Obligations.RxAppAppendsOneByte := by
  unfold Obligations.RxAppAppendsOneByte
  intro s b h
  refine ⟨_, exec_rxApp_next b h, rfl, received_singleton_flen b h, ?_, fun a ha => ?_⟩
  · rw [byteOf, withResult_mem, received_singleton_mem, Memory.read_write_same]
  · rw [withResult_mem, received_singleton_mem, Memory.read_write_ne _ _ ha]

/-- Settles O35: the rule raises the code before it stores anything. -/
theorem rxAppOverflowsAt513 : Obligations.RxAppOverflowsAt513 := by
  unfold Obligations.RxAppOverflowsAt513
  exact fun s b h => endsWith_of_raise (ruleOf_rxApp_full b h)

end Sys2Proof.Machine
end

section
/-! Value bytes as one number, most significant byte first (R181), and its canonical extension into VAL (R180, R191). -/

namespace Sys2Proof.Machine

/-! A sequence of bytes and the number it writes. -/

/-- `valueOf` started from a number `a` already read: the bytes to come shift it up. -/
theorem foldl_eq_mul_add_valueOf (bs : List Byte) (a : Nat) :
    bs.foldl (fun x b => x * 256 + b.toNat) a = a * 256 ^ bs.length + valueOf bs := by
  induction bs generalizing a with
  | nil => simp [valueOf]
  | cons b bs ih => rw [valueOf, List.foldl_cons, List.foldl_cons, ih, ih, List.length_cons, pow_succ]; ring

theorem valueOf_cons (b : Byte) (bs : List Byte) : valueOf (b :: bs) = b.toNat * 256 ^ bs.length + valueOf bs := by
  rw [valueOf, List.foldl_cons, foldl_eq_mul_add_valueOf, Nat.zero_mul, Nat.zero_add]

theorem valueOf_lt (bs : List Byte) : valueOf bs < 256 ^ bs.length := by
  induction bs with
  | nil => simp [valueOf]
  | cons b bs ih =>
    have hb : b.toNat < 256 := b.isLt
    rw [valueOf_cons, List.length_cons, pow_succ]
    nlinarith

/-- Sequences of one length that write the same number are the same. -/
theorem eq_of_valueOf_eq {bs cs : List Byte} (hl : bs.length = cs.length) (h : valueOf bs = valueOf cs) : bs = cs := by
  induction bs generalizing cs with
  | nil => exact (List.length_eq_zero_iff.1 hl.symm).symm
  | cons b bs ih =>
    obtain _ | ⟨c, cs⟩ := cs
    · cases hl
    have hl' : bs.length = cs.length := Nat.succ.inj hl
    rw [valueOf_cons, valueOf_cons, hl'] at h
    have hbs := hl' ▸ valueOf_lt bs
    have hcs := valueOf_lt cs
    have hhead : b.toNat = c.toNat := by
      have hdiv := congrArg (· / 256 ^ cs.length) h
      simpa [Nat.mul_comm _ (256 ^ cs.length), Nat.mul_add_div, Nat.div_eq_of_lt, hbs, hcs] using hdiv
    rw [hhead] at h
    rw [BitVec.eq_of_toNat_eq hhead, ih hl' (Nat.add_left_cancel h)]

/-- R181's sum. -/
theorem sum_byteAt_eq_valueOf (bs : List Byte) :
    ((List.range bs.length).map fun j => (byteAt bs j).toNat * 2 ^ (8 * (bs.length - 1 - j))).sum = valueOf bs := by
  induction bs with
  | nil => rfl
  | cons b bs ih =>
    have hpow : 2 ^ (8 * bs.length) = 256 ^ bs.length := pow_mul 2 8 _
    rw [valueOf_cons, ← ih, ← hpow, List.length_cons, List.range_succ_eq_map]
    simp [Function.comp_def, Nat.sub_sub, Nat.add_comm 1]

@[simp] theorem length_valueBytes (n : Nat) (v : BitVec 64) : (valueBytes n v).length = n := by simp [valueBytes]

theorem byteAt_valueBytes {n j : Nat} (h : j < n) (v : BitVec 64) : byteAt (valueBytes n v) j = valByte n v j := by
  simp [byteAt, valueBytes, valByte, h]

theorem valueBytes_succ (n : Nat) (v : BitVec 64) :
    valueBytes (n + 1) v = v.extractLsb' (8 * n) 8 :: valueBytes n v := by
  simp [valueBytes, List.range_succ_eq_map, Function.comp_def, Nat.sub_sub, Nat.add_comm 1]

/-- The value bytes write the low bytes of VAL. -/
theorem valueOf_valueBytes (n : Nat) (v : BitVec 64) : valueOf (valueBytes n v) = v.toNat % 256 ^ n := by
  induction n with
  | zero => simp [valueBytes, valueOf, Nat.mod_one]
  | succ n ih =>
    have hpow : 2 ^ (8 * n) = 256 ^ n := pow_mul 2 8 _
    have hhead : (v.extractLsb' (8 * n) 8).toNat = v.toNat / 256 ^ n % 256 := by
      rw [BitVec.extractLsb'_toNat, Nat.shiftRight_eq_div_pow, hpow]
    rw [valueBytes_succ, valueOf_cons, length_valueBytes, ih, hhead, Nat.mod_pow_succ, Nat.mul_comm, Nat.add_comm]

/-- Reading the value bytes of VAL and writing VAL's low bytes as a number are inverse. -/
theorem valueBytes_eq_iff {n : Nat} {bs : List Byte} (hl : bs.length = n) (v : BitVec 64) :
    valueBytes n v = bs ↔ v.toNat % 256 ^ n = valueOf bs := by
  rw [← valueOf_valueBytes]
  exact ⟨congrArg valueOf, eq_of_valueOf_eq ((length_valueBytes n v).trans hl.symm)⟩

/-! Extension (R180). -/

theorem extractLsb'_low_eq_ofNat_iff {n w x : Nat} (hx : x < 2 ^ n) (v : BitVec w) :
    v.extractLsb' 0 n = BitVec.ofNat n x ↔ v.toNat % 2 ^ n = x := by
  rw [← BitVec.toNat_inj, BitVec.extractLsb'_toNat, Nat.shiftRight_zero, BitVec.toNat_ofNat, Nat.mod_eq_of_lt hx]

theorem extractLsb'_low_signExtend {n w : Nat} (hw : n ≤ w) (b : BitVec n) :
    (b.signExtend w).extractLsb' 0 n = b := by
  apply BitVec.eq_of_toInt_eq
  rw [toInt_extractLsb'_low hw, BitVec.toInt_signExtend_of_le hw, BitVec.toInt_bmod_cancel]

/-- VAL is an `n`-bit number sign-extended exactly when it is its low bits sign-extended and they are the number. -/
theorem eq_signExtend_ofNat_iff {n w x : Nat} (hw : n ≤ w) (hx : x < 2 ^ n) (v : BitVec w) :
    v = (BitVec.ofNat n x).signExtend w ↔ v = (v.extractLsb' 0 n).signExtend w ∧ v.toNat % 2 ^ n = x := by
  rw [← extractLsb'_low_eq_ofNat_iff hx]
  constructor
  · rintro rfl
    rw [extractLsb'_low_signExtend hw]
    exact ⟨rfl, rfl⟩
  · rintro ⟨hv, hlow⟩
    rwa [hlow] at hv

/-- VAL is an `n`-bit number zero-extended exactly when it is below 2^n and its low bits are the number. -/
theorem eq_ofNat_iff_lt_and_mod {n w x : Nat} (hw : n ≤ w) (hx : x < 2 ^ n) (v : BitVec w) :
    v = BitVec.ofNat w x ↔ v.toNat < 2 ^ n ∧ v.toNat % 2 ^ n = x := by
  have hxw : x < 2 ^ w := hx.trans_le (Nat.pow_le_pow_right (by decide) hw)
  rw [← BitVec.toNat_inj, BitVec.toNat_ofNat, Nat.mod_eq_of_lt hxw]
  constructor
  · rintro rfl
    exact ⟨hx, Nat.mod_eq_of_lt hx⟩
  · rintro ⟨hlt, hmod⟩
    rwa [Nat.mod_eq_of_lt hlt] at hmod

/-- VAL is a number of the type's width, extended, exactly when it is canonical and its low bytes are the number. -/
theorem eq_extendValue_iff {t : ValType} (ht : t ≠ .bool) {x : Nat} (hx : x < 256 ^ (2 * valWidth t))
    (v : BitVec 64) : v = extendValue t x ↔
      canonical t v = true ∧ v.toNat % 256 ^ (2 * valWidth t) = x := by
  obtain ⟨hu16, hu32, hf32, -⟩ := canonicalFormsOfVal v
  cases t with
  | bool => exact absurd rfl ht
  | u16 => rw [hu16]; exact eq_ofNat_iff_lt_and_mod (n := 16) (by decide) hx v
  | u32 => rw [hu32]; exact eq_ofNat_iff_lt_and_mod (n := 32) (by decide) hx v
  | f32 => rw [hf32]; exact eq_ofNat_iff_lt_and_mod (n := 32) (by decide) hx v
  | i16 => rw [canonical, beq_iff_eq]; exact eq_signExtend_ofNat_iff (n := 16) (by decide) hx v
  | i32 => rw [canonical, beq_iff_eq]; exact eq_signExtend_ofNat_iff (n := 32) (by decide) hx v
  | f64 =>
    have hall : canonical .f64 v = true ↔ v.toNat < 2 ^ 64 := iff_of_true rfl v.isLt
    rw [hall]
    exact eq_ofNat_iff_lt_and_mod (n := 64) le_rfl hx v

/-- The model's extension is the one of R180. -/
theorem extends_extendValue (t : ValType) {x : Nat} (hx : x < 256 ^ (2 * valWidth t)) :
    Extends t x (extendValue t x) := by
  have hx64 : x < 2 ^ 64 := by
    refine hx.trans_le ?_
    cases t <;> decide
  cases t
  case i16 | i32 => exact BitVec.toInt_signExtend_of_le (by decide)
  all_goals exact (BitVec.toNat_ofNat x 64).trans (Nat.mod_eq_of_lt hx64)

end Sys2Proof.Machine
end

section
/-! The mapping between value bytes and words (R182, R183): the places of the words' bytes are a permutation, so the two
directions are inverse. -/

namespace Sys2Proof.Machine

/-! The places. -/

/-- The model's places are those of R182's table. -/
theorem wordPlaces_eq (o : ByteOrder) (k i : Nat) : wordPlaces o k i = (hiPlace o k i, loPlace o k i) := by
  cases o <;> rfl

theorem places_lt (o : ByteOrder) {k i : Nat} (h : i < k) : hiPlace o k i < 2 * k ∧ loPlace o k i < 2 * k := by
  cases o <;> simp only [hiPlace, loPlace] <;> omega

theorem hiPlace_ne_loPlace (o : ByteOrder) {k i j : Nat} (hi : i < k) (hj : j < k) :
    hiPlace o k i ≠ loPlace o k j := by
  cases o <;> simp only [hiPlace, loPlace] <;> omega

theorem hiPlace_ne_hiPlace (o : ByteOrder) {k i j : Nat} (hi : i < k) (hj : j < k) (h : i ≠ j) :
    hiPlace o k i ≠ hiPlace o k j := by
  cases o <;> simp only [hiPlace] <;> omega

theorem loPlace_ne_loPlace (o : ByteOrder) {k i j : Nat} (hi : i < k) (hj : j < k) (h : i ≠ j) :
    loPlace o k i ≠ loPlace o k j := by
  cases o <;> simp only [loPlace] <;> omega

/-- Every place is some word's: place `p` belongs to word `p / 2`, counted from the end under LE and BEWS. -/
theorem exists_place (o : ByteOrder) {k p : Nat} (h : p < 2 * k) :
    ∃ i, i < k ∧ (hiPlace o k i = p ∨ loPlace o k i = p) := by
  cases o
  case be | lews => exact ⟨p / 2, by omega, by simp only [hiPlace, loPlace]; omega⟩
  case le | bews => exact ⟨k - 1 - p / 2, by omega, by simp only [hiPlace, loPlace]; omega⟩

/-! Bytes to words and back. -/

theorem byteAt_set_self {v : List Byte} {i : Nat} (h : i < v.length) (x : Byte) : byteAt (v.set i x) i = x := by
  simp [byteAt, h]

theorem byteAt_set_ne {v : List Byte} {i j : Nat} (h : i ≠ j) (x : Byte) : byteAt (v.set i x) j = byteAt v j := by
  simp [byteAt, List.getElem?_set_ne h]

/-- Word `i`'s two bytes laid into the value bytes at their places: one round of `bytesOf`. -/
def layWord (o : ByteOrder) (k : Nat) (ws : List Word16) (v : List Byte) (i : Nat) : List Byte :=
  (v.set (hiPlace o k i) (hi8 (ws.getD i 0))).set (loPlace o k i) (lo8 (ws.getD i 0))

theorem bytesOf_eq_foldl_layWord (o : ByteOrder) (k : Nat) (ws : List Word16) :
    bytesOf o k ws = (List.range k).foldl (layWord o k ws) (List.replicate (2 * k) 0) := rfl

/-- Word `i`'s two bytes stand at their places in `v`. -/
def HasWord (o : ByteOrder) (k : Nat) (v : List Byte) (i : Nat) (w : Word16) : Prop :=
  byteAt v (hiPlace o k i) = hi8 w ∧ byteAt v (loPlace o k i) = lo8 w

theorem hasWord_iff (o : ByteOrder) (k : Nat) (v : List Byte) (i : Nat) (w : Word16) :
    HasWord o k v i w ↔ be16 (byteAt v (hiPlace o k i)) (byteAt v (loPlace o k i)) = w := by
  rw [eq_comm, be16_eq_iff, HasWord, eq_comm, @eq_comm _ (byteAt v (loPlace o k i))]

@[simp] theorem length_layWord (o : ByteOrder) (k : Nat) (ws : List Word16) (v : List Byte) (i : Nat) :
    (layWord o k ws v i).length = v.length := by simp [layWord]

theorem hasWord_layWord_self (o : ByteOrder) {k i : Nat} (ws : List Word16) {v : List Byte} (hv : v.length = 2 * k)
    (hi : i < k) : HasWord o k (layWord o k ws v i) i (ws.getD i 0) := by
  obtain ⟨hhi, hlo⟩ := places_lt o hi
  constructor
  · rw [layWord, byteAt_set_ne (hiPlace_ne_loPlace o hi hi).symm, byteAt_set_self (by omega)]
  · rw [layWord, byteAt_set_self (by simpa [hv] using hlo)]

theorem hasWord_layWord_ne (o : ByteOrder) {k i j : Nat} {ws : List Word16} {v : List Byte} {w : Word16} (hi : i < k)
    (hj : j < k) (hne : i ≠ j) (h : HasWord o k v j w) : HasWord o k (layWord o k ws v i) j w := by
  obtain ⟨hhi, hlo⟩ := h
  constructor
  · rw [layWord, byteAt_set_ne (hiPlace_ne_loPlace o hj hi).symm, byteAt_set_ne (hiPlace_ne_hiPlace o hi hj hne), hhi]
  · rw [layWord, byteAt_set_ne (loPlace_ne_loPlace o hi hj hne), byteAt_set_ne (hiPlace_ne_loPlace o hi hj), hlo]

/-- After `m` rounds the length is kept and the first `m` words stand at their places. -/
theorem foldl_layWord (o : ByteOrder) {k m : Nat} (ws : List Word16) {v : List Byte} (hv : v.length = 2 * k)
    (hm : m ≤ k) : ((List.range m).foldl (layWord o k ws) v).length = 2 * k ∧
      ∀ i, i < m → HasWord o k ((List.range m).foldl (layWord o k ws) v) i (ws.getD i 0) := by
  induction m with
  | zero => exact ⟨hv, fun i hi => absurd hi i.not_lt_zero⟩
  | succ m ih =>
    obtain ⟨hl, hword⟩ := ih (by omega)
    rw [List.range_succ, List.foldl_append, List.foldl_cons, List.foldl_nil]
    refine ⟨(length_layWord ..).trans hl, fun i hi => ?_⟩
    by_cases him : i = m
    · subst him
      exact hasWord_layWord_self o ws hl (by omega)
    · exact hasWord_layWord_ne o (by omega) (by omega) (Ne.symm him) (hword i (by omega))

@[simp] theorem length_bytesOf (o : ByteOrder) (k : Nat) (ws : List Word16) : (bytesOf o k ws).length = 2 * k :=
  (foldl_layWord o ws List.length_replicate le_rfl).1

theorem hasWord_bytesOf (o : ByteOrder) {k i : Nat} (ws : List Word16) (hi : i < k) :
    HasWord o k (bytesOf o k ws) i (ws.getD i 0) :=
  (foldl_layWord o ws List.length_replicate le_rfl).2 i hi

/-- Value bytes are the bytes of the words exactly when every word stands in them: the places reach every byte. -/
theorem eq_bytesOf_iff_hasWord (o : ByteOrder) {k : Nat} (ws : List Word16) {v : List Byte} (hv : v.length = 2 * k) :
    v = bytesOf o k ws ↔ ∀ i, i < k → HasWord o k v i (ws.getD i 0) := by
  constructor
  · rintro rfl i hi
    exact hasWord_bytesOf o ws hi
  · intro h
    refine eq_of_byteAt (hv.trans (length_bytesOf o k ws).symm) fun p hp => ?_
    obtain ⟨i, hi, hplace⟩ := exists_place o (hv ▸ hp)
    obtain ⟨hhi, hlo⟩ := h i hi
    obtain ⟨hhi', hlo'⟩ := hasWord_bytesOf o ws hi
    obtain rfl | rfl := hplace
    · rw [hhi, hhi']
    · rw [hlo, hlo']

@[simp] theorem length_wordsOf (o : ByteOrder) (k : Nat) (v : List Byte) : (wordsOf o k v).length = k := by
  simp [wordsOf]

theorem getElem?_wordsOf (o : ByteOrder) {k i : Nat} (h : i < k) (v : List Byte) :
    (wordsOf o k v)[i]? = some (be16 (byteAt v (hiPlace o k i)) (byteAt v (loPlace o k i))) := by
  simp [wordsOf, h]

/-- The two mappings are inverse (R183). -/
theorem eq_bytesOf_iff (o : ByteOrder) {k : Nat} {ws : List Word16} {v : List Byte} (hv : v.length = 2 * k)
    (hws : k ≤ ws.length) : v = bytesOf o k ws ↔ wordsOf o k v = ws.take k := by
  rw [eq_bytesOf_iff_hasWord o ws hv, List.ext_getElem?_iff]
  refine forall_congr' fun i => ?_
  by_cases hi : i < k
  · have hget : ws[i]? = some (ws.getD i 0) := by simp [show i < ws.length by omega]
    rw [forall_prop_of_true hi, hasWord_iff, getElem?_wordsOf o hi, List.getElem?_take_of_lt hi, hget,
      Option.some.injEq]
  · simp [hi]

end Sys2Proof.Machine
end

section
/-! The codec's commands VAL.PACK and VAL.UNPACK (R186, R190 to R192). -/

namespace Sys2Proof.Machine

/-! The words VAL.PACK writes and the value VAL.UNPACK reads. -/

theorem packedWords_of_ne_bool {t : ValType} (ht : t ≠ .bool) (o : ByteOrder) (v : BitVec 64) :
    packedWords t o v = wordsOf o (valWidth t) (valueBytes (2 * valWidth t) v) := by
  cases t with
  | bool => exact absurd rfl ht
  | u16 | i16 | u32 | i32 | f32 | f64 => rfl

theorem unpackedValue_of_ne_bool {t : ValType} (ht : t ≠ .bool) (o : ByteOrder) (ws : List Word16) :
    unpackedValue t o ws = some (extendValue t (valueOf (bytesOf o (valWidth t) ws))) := by
  cases t with
  | bool => exact absurd rfl ht
  | u16 | i16 | u32 | i32 | f32 | f64 => rfl

theorem valWidth_le (t : ValType) : valWidth t ≤ 4 := by cases t <;> decide

@[simp] theorem length_packedWords (t : ValType) (o : ByteOrder) (v : BitVec 64) :
    (packedWords t o v).length = valWidth t := by
  by_cases ht : t = .bool
  · subst ht; rfl
  · rw [packedWords_of_ne_bool ht, length_wordsOf]

theorem valueOf_bytesOf_lt (t : ValType) (o : ByteOrder) (ws : List Word16) :
    valueOf (bytesOf o (valWidth t) ws) < 256 ^ (2 * valWidth t) := by
  simpa using valueOf_lt (bytesOf o (valWidth t) ws)

/-- BOOL's two directions: VAL is read as the word, 0 or 1 and no other (R186). -/
theorem unpackedValue_bool_iff (o : ByteOrder) (w : Word16) (ws : List Word16) (v : BitVec 64) :
    unpackedValue .bool o (w :: ws) = some v ↔ (v = 0 ∨ v = 1) ∧ v.extractLsb' 0 16 = w := by
  simp only [unpackedValue, List.getD_cons_zero]
  split
  next hw =>
    simp only [reduceCtorEq, false_iff, not_and]
    rintro (rfl | rfl) rfl
    all_goals exact absurd hw (by decide)
  next hw =>
    rw [Option.some.injEq]
    constructor
    · rintro rfl
      have hw01 : w = 0 ∨ w = 1 := by
        rw [← BitVec.toNat_inj, ← BitVec.toNat_inj]
        exact Nat.le_one_iff_eq_zero_or_eq_one.1 (not_lt.1 hw)
      obtain rfl | rfl := hw01
      all_goals decide
    · rintro ⟨rfl | rfl, rfl⟩
      all_goals rfl

/-- VAL.UNPACK reads `v` from the words exactly when `v` is canonical and they are what VAL.PACK writes for it. -/
theorem unpackedValue_eq_some_iff (t : ValType) (o : ByteOrder) {ws : List Word16} (hws : valWidth t ≤ ws.length)
    (v : BitVec 64) :
    unpackedValue t o ws = some v ↔ canonical t v = true ∧ packedWords t o v = ws.take (valWidth t) := by
  by_cases ht : t = .bool
  · subst ht
    obtain _ | ⟨w, ws⟩ := ws
    · exact absurd hws (by decide)
    · obtain ⟨-, -, -, -, -, -, hbool⟩ := canonicalFormsOfVal v
      rw [unpackedValue_bool_iff, hbool]
      exact and_congr_right' (by simp [packedWords, valWidth])
  · rw [unpackedValue_of_ne_bool ht, Option.some.injEq, eq_comm, eq_extendValue_iff ht (valueOf_bytesOf_lt t o ws),
      ← valueBytes_eq_iff (length_bytesOf ..), eq_bytesOf_iff o (length_valueBytes ..) hws, packedWords_of_ne_bool ht]

/-! The word registers (R190). -/

@[simp] theorem length_words (s : State) : (words s).length = 4 := rfl

/-- Writing words to W0 up leaves the words above. -/
theorem words_writeWords (s : State) {v : List Word16} (h : v.length ≤ 4) :
    words (writeWords s v) = v ++ (words s).drop v.length := by
  match v, h with
  | [], _ | [_], _ | [_, _], _ | [_, _, _], _ | [_, _, _, _], _ => rfl

theorem words_withResult (s : State) (c : ErrCode) : words (withResult s c) = words s := rfl

/-! The two commands. -/

/-- What VAL.PACK leaves before ERRCODE and BUSY. -/
def packed (t : ValType) (o : ByteOrder) (s : State) : State :=
  { writeWords s (packedWords t o s.val) with wcnt := BitVec.ofNat 3 (valWidth t) }

theorem packed_wcnt (t : ValType) (o : ByteOrder) (s : State) : (packed t o s).wcnt.toNat = valWidth t := by
  cases t <;> rfl

theorem words_packed (t : ValType) (o : ByteOrder) (s : State) :
    words (packed t o s) = packedWords t o s.val ++ (words s).drop (valWidth t) := by
  have hw := words_writeWords s (v := packedWords t o s.val) (by simp [valWidth_le])
  rwa [length_packedWords] at hw

theorem exec_valPack {t : ValType} {s : State} (o : ByteOrder) (h : canonical t s.val = true) :
    exec (.valPack t o) s = .next (withResult (packed t o s) .ok) :=
  exec_of_ok (if_pos h)

theorem exec_valUnpack {t : ValType} {o : ByteOrder} {s : State} {v : BitVec 64} (hw : s.wcnt.toNat = valWidth t)
    (hv : unpackedValue t o (words s) = some v) :
    exec (.valUnpack t o) s = .next (withResult { s with val := v } .ok) := by
  refine exec_of_ok ?_
  rw [ruleOf, ruleValUnpack, if_neg (not_not.2 hw), hv]

theorem endsWith_valUnpack_codType {t : ValType} {o : ByteOrder} {s : State} (hw : s.wcnt.toNat = valWidth t)
    (hv : unpackedValue t o (words s) = none) : EndsWith (.valUnpack t o) s .codType := by
  refine endsWith_of_raise ?_
  rw [ruleOf, ruleValUnpack, if_neg (not_not.2 hw), hv]

/-! The obligations. -/

/-- Settles O38: the words are the packed ones, then those that stood above them. -/
theorem valPackWritesTheWords : Obligations.ValPackWritesTheWords := by
  unfold Obligations.ValPackWritesTheWords
  intro t o s ht hc
  refine ⟨_, exec_valPack o hc, rfl, packed_wcnt t o s, fun i hi => ?_⟩
  have hl := length_packedWords t o s.val
  rw [words_withResult, words_packed, wordPlaces_eq]
  split
  next hlt =>
    obtain ⟨hhi, hlo⟩ := places_lt o hlt
    rw [List.getElem?_append_left (by omega), packedWords_of_ne_bool ht, getElem?_wordsOf o hlt, byteAt_valueBytes hhi,
      byteAt_valueBytes hlo]
  next hge => rw [List.getElem?_append_right (by omega), hl, List.getElem?_drop, Nat.add_sub_cancel' (by omega)]

/-- Settles O41: the value bytes are `bytesOf` of the words, in which every word stands at its places. -/
theorem valUnpackReadsTheWords : Obligations.ValUnpackReadsTheWords := by
  unfold Obligations.ValUnpackReadsTheWords
  intro t o s ht hw
  refine ⟨_, bytesOf o (valWidth t) (words s), exec_valUnpack hw (unpackedValue_of_ne_bool ht o (words s)), rfl,
    length_bytesOf .., fun i hi => ?_, ?_⟩
  · rw [wordPlaces_eq]
    exact hasWord_bytesOf o (words s) hi
  · rw [sum_byteAt_eq_valueOf]
    exact extends_extendValue t (valueOf_bytesOf_lt t o (words s))

/-- Settles O42: the words VAL.PACK leaves are those VAL.UNPACK reads VAL from. -/
theorem packThenUnpackGivesValBack : Obligations.PackThenUnpackGivesValBack := by
  unfold Obligations.PackThenUnpackGivesValBack
  intro t o s hc
  have hread : unpackedValue t o (words (packed t o s)) = some s.val := by
    rw [unpackedValue_eq_some_iff t o (ws := words (packed t o s)) (valWidth_le t)]
    refine ⟨hc, ?_⟩
    rw [words_packed, List.take_left' (length_packedWords ..)]
  exact ⟨_, _, exec_valPack o hc, rfl, exec_valUnpack (packed_wcnt t o s) hread, rfl, rfl⟩

/-- Settles O43: the value VAL.UNPACK reads is canonical, and VAL.PACK's words for it are those it was read from. -/
theorem unpackThenPackGivesTheWordsBack : Obligations.UnpackThenPackGivesTheWordsBack := by
  unfold Obligations.UnpackThenPackGivesTheWordsBack
  intro t o s ht hw
  obtain ⟨x, hread⟩ : ∃ x, unpackedValue t o (words s) = some x :=
    ⟨_, unpackedValue_of_ne_bool ht o (words s)⟩
  obtain ⟨hc, hpack⟩ := (unpackedValue_eq_some_iff t o (ws := words s) (valWidth_le t) x).1 hread
  refine ⟨_, _, exec_valUnpack hw hread, exec_valPack o hc, rfl, ?_, ?_⟩
  · rw [words_withResult, words_packed]
    exact (congrArg (· ++ _) hpack).trans (List.take_append_drop ..)
  · exact BitVec.eq_of_toNat_eq ((packed_wcnt t o (withResult { s with val := x } .ok)).trans hw.symm)

/-- Settles O39: VAL.PACK copies the bit whatever the order; VAL.UNPACK takes the words 0 and 1 and no other. -/
theorem boolIsOneWordWhateverTheOrder : Obligations.BoolIsOneWordWhateverTheOrder := by
  unfold Obligations.BoolIsOneWordWhateverTheOrder
  intro o s
  have hpack (b : BitVec 64) (hb : canonical .bool b = true) (hv : s.val = b) : exec (.valPack .bool o) s =
      .next { s with w0 := b.extractLsb' 0 16, wcnt := 1, errcode := .ok, busy := false } := by
    subst hv
    exact exec_valPack o hb
  refine ⟨hpack 0 rfl, hpack 1 rfl, fun hwcnt => ?_⟩
  have hw : s.wcnt.toNat = valWidth .bool := congrArg BitVec.toNat hwcnt
  have hread := unpackedValue_bool_iff o s.w0 [s.w1, s.w2, s.w3]
  split
  next h0 => exact exec_valUnpack hw ((hread 0).2 ⟨.inl rfl, h0.symm⟩)
  next h0 =>
    split
    next h1 => exact exec_valUnpack hw ((hread 1).2 ⟨.inr rfl, h1.symm⟩)
    next h1 =>
      refine endsWith_valUnpack_codType hw (Option.eq_none_iff_forall_not_mem.2 fun v hv => ?_)
      obtain ⟨rfl | rfl, hv0⟩ := (hread v).1 hv
      · exact h0 hv0.symm
      · exact h1 hv0.symm

/-- Settles O40: each rule's first check raises. -/
theorem codecRefusesValuesAndCounts : Obligations.CodecRefusesValuesAndCounts := by
  unfold Obligations.CodecRefusesValuesAndCounts
  intro t o s
  exact ⟨fun h => endsWith_of_raise (if_neg (by simp [h])), fun h => endsWith_of_raise (if_pos h)⟩

end Sys2Proof.Machine
end

section
/-! How every command ends: with OK, or with one of its own codes (R222), with BUSY = 0 (R226), and a failed one with no
other effect (R224); and the step of a block with nothing to do (R237, R252). -/

namespace Sys2Proof.Machine

/-- Every code the rule raises is one of `cs`. -/
def RaisesIn {α : Type} (cs : List ErrCode) (x : Except Stop α) : Prop := ∀ c, x = .error (.err c) → c ∈ cs

section
variable {α β : Type} {cs : List ErrCode}

theorem RaisesIn.ok (a : α) : RaisesIn cs (.ok a : Except Stop α) := fun _ h => nomatch h

theorem RaisesIn.raise {c : ErrCode} (hc : c ∈ cs) : RaisesIn cs (raise c : Except Stop α) := by
  rintro _ ⟨⟩
  exact hc

/-- Each branch may use that it is taken. -/
theorem RaisesIn.ite {p : Prop} [Decidable p] {x y : Except Stop α} (hx : p → RaisesIn cs x)
    (hy : ¬p → RaisesIn cs y) : RaisesIn cs (if p then x else y) := by
  split
  next hp => exact hx hp
  next hp => exact hy hp

theorem RaisesIn.map {x : Except Stop α} {g : α → β} (hx : RaisesIn cs x) : RaisesIn cs (x.map g) := by
  cases x with
  | error e => exact fun c h => hx c (congrArg Except.error (Except.error.inj h))
  | ok a => exact .ok (g a)

theorem RaisesIn.bind {x : Except Stop α} {k : α → Except Stop β} (hx : RaisesIn cs x) (hk : ∀ a, RaisesIn cs (k a)) :
    RaisesIn cs (x.bind k) := by
  cases x with
  | error e => exact fun c h => hx c (congrArg Except.error (Except.error.inj h))
  | ok a => exact hk a

end

/-! The rules, each with the codes R222 lists for its command. -/

theorem raisesIn_checkTx (s : State) : RaisesIn [.valPduLen, .valUnit] (checkTx s) := by
  intro c h
  rcases checkTx_error s _ h with ⟨he, -⟩ | ⟨he, -⟩ | ⟨j, -, -, -, he⟩
  · obtain rfl := Stop.err.inj he
    decide
  · obtain rfl := Stop.err.inj he
    decide
  · exact nomatch he

theorem raisesIn_readFrame {cs : List ErrCode} (hc : .frmLength ∈ cs) (s : State) (lo hi : Nat) :
    RaisesIn cs (readFrame s lo hi) := by
  intro c h
  rcases readFrame_error s lo hi _ h with ⟨he, -⟩ | ⟨j, -, -, -, he⟩
  · obtain rfl := Stop.err.inj he
    exact hc
  · exact nomatch he

/-- TRN_TID is raised only where CHK asks for the check. -/
theorem raisesIn_parseTcp (chk : Bool) (s : State) (f : List Byte) :
    RaisesIn (codesOf (.dfrTcp chk)) (parseTcp chk s f) := by
  have hheader : .frmHeader ∈ codesOf (.dfrTcp chk) := by cases chk <;> decide
  refine .ite (fun _ => .raise hheader) fun _ => .ite (fun _ => .raise hheader) fun _ =>
    .ite (fun _ => .raise hheader) fun _ => .ite ?_ fun _ => .ok _
  rintro ⟨rfl, -⟩
  exact .raise (by decide)

theorem raisesIn_parseRtu (s : State) (f : List Byte) : RaisesIn (codesOf .dfrRtu) (parseRtu s f) :=
  .ite (fun _ => .raise (by decide)) fun _ => .ite (fun _ => .raise (by decide)) fun _ => .ok _

theorem raisesIn_parseAscBytes (s : State) (d : List Byte) : RaisesIn (codesOf .dfrAsc) (parseAscBytes s d) :=
  .ite (fun _ => .raise (by decide)) fun _ => .ite (fun _ => .raise (by decide)) fun _ => .ok _

theorem raisesIn_parseAsc (s : State) (f : List Byte) : RaisesIn (codesOf .dfrAsc) (parseAsc s f) := by
  refine .ite (fun _ => .raise (by decide)) fun _ => .ite (fun _ => .raise (by decide)) fun _ =>
    .ite (fun _ => .raise (by decide)) fun _ => ?_
  split
  · exact .raise (by decide)
  · exact raisesIn_parseAscBytes s _

/-- COD_TYPE is raised only for BOOL: words of any other type have a value. -/
theorem raisesIn_ruleValUnpack (t : ValType) (o : ByteOrder) (s : State) :
    RaisesIn (codesOf (.valUnpack t o)) (ruleValUnpack t o s) := by
  refine .ite (fun _ => .raise ?_) fun _ => ?_
  · cases t <;> exact .head _
  · split
    next => exact .ok _
    next hnone =>
      obtain rfl : t = .bool := by
        by_contra ht
        exact nomatch (unpackedValue_of_ne_bool ht o (words s)).symm.trans hnone
      exact .raise (.tail _ (.head _))

theorem raisesIn_ruleOf (i : Instr) (s : State) : RaisesIn (codesOf i) (ruleOf i s) := by
  cases i
  case crcInit | crcUpd | lrcInit | lrcUpd | rxRst | srst => exact .ok _
  case frmTcp | frmRtu | frmAsc => exact (raisesIn_checkTx s).map
  case dfrTcp chk => exact (raisesIn_readFrame (by cases chk <;> decide) s 8 260).bind (raisesIn_parseTcp chk s)
  case dfrRtu => exact (raisesIn_readFrame (by decide) s 4 256).bind (raisesIn_parseRtu s)
  case dfrAsc => exact (raisesIn_readFrame (by decide) s 9 513).bind (raisesIn_parseAsc s)
  case rxApp => exact .ite (fun _ => .raise (.head _)) fun _ => .ok _
  case valPack => exact .ite (fun _ => .ok _) fun _ => .raise (.head _)
  case valUnpack t o => exact raisesIn_ruleValUnpack t o s

/-- What a completion is: the rule ran, or the command failed with one of its codes and no other effect. -/
theorem exec_next_ok_or_code {i : Instr} {s t : State} (h : exec i s = .next t) :
    (∃ u, t = withResult u .ok) ∨ ∃ c ∈ codesOf i, t = withResult s c := by
  rw [exec_eq_complete_ruleOf] at h
  rcases complete_next h with ⟨u, -, rfl⟩ | ⟨c, hrule, rfl⟩
  · exact .inl ⟨u, rfl⟩
  · exact .inr ⟨c, raisesIn_ruleOf i s c hrule, rfl⟩

/-- With no LATENCY left there is none to count. -/
theorem tick_of_wait_zero {s : State} (h : s.wait = 0) : tick s = s := by
  rw [tick, h, Nat.zero_sub, ← h]

/-! The obligations. -/

/-- Settles O46: a completion whose code is not OK is that of a rule that raised. -/
theorem failedCommandsChangeOnlyStatus : Obligations.FailedCommandsChangeOnlyStatus := by
  unfold Obligations.FailedCommandsChangeOnlyStatus
  intro i s t h hfail
  rcases exec_next_ok_or_code h with ⟨u, rfl⟩ | ⟨c, -, rfl⟩
  · exact absurd (withResult_errcode u .ok) hfail
  · rfl

/-- Settles O47: the rule raises only codes of its command, and completion clears BUSY. -/
theorem commandsEndWithTheirCodes : Obligations.CommandsEndWithTheirCodes := by
  unfold Obligations.CommandsEndWithTheirCodes
  intro i s t h
  rcases exec_next_ok_or_code h with ⟨u, rfl⟩ | ⟨c, hc, rfl⟩
  · exact ⟨withResult_busy u .ok, .inl (withResult_errcode u .ok)⟩
  · exact ⟨withResult_busy s c, .inr hc⟩

/-- Settles O9: the step is the host's, which has nothing to do, and no LATENCY is left to count. -/
theorem idleBlockKeepsItsState : Obligations.IdleBlockKeepsItsState := by
  unfold Obligations.IdleBlockKeepsItsState
  intro s hb hw hh
  rw [step_host (engineReady_of_not_busy hb), hostStep_nil hh, tick_of_wait_zero hw]

end Sys2Proof.Machine
end

section
/-! Power-on reset (R250, R251). -/

namespace Sys2Proof.Machine

/-- Idle or busy, the host's reset is the step, except where the engine is in its completing step. -/
theorem step_powerOnReset {s : State} {rest : List HostOp} (h : s.host = .powerOnReset :: rest)
    (hwait : s.busy = true → 0 < s.wait) : step s = .next (powerOnReset (popHost s)) := by
  cases hb : s.busy with
  | false => rw [step_idle h hb, hostIdle]
  | true => rw [step_busy hb (hwait hb) h, hostBusy]

/-- Settles O8: the step is the host's reset, which keeps of the old state only what the environment goes on with. -/
theorem powerOnResetGivesResetState : Obligations.PowerOnResetGivesResetState := by
  unfold Obligations.PowerOnResetGivesResetState
  intro s rest h hwait
  rw [step_powerOnReset h hwait, popHost_eq h, powerOnReset]

end Sys2Proof.Machine
end
